-- ==== Sys2Proof/Word.lean ====
section
/-! DEFINITION. The words of the register port: a data word of 32 bits (R7 `DATA_WIDTH`) and a byte
offset of 12 bits (R7 `ADDR_WIDTH`). -/

namespace Sys2Proof

/-- The data of one host transaction and of one register slot: 32 bits (R7, R35). -/
abbrev Word := BitVec 32

/-- The byte offset of a host transaction into the 4096-byte register window: 12 bits (R29). -/
abbrev Offset := BitVec 12

end Sys2Proof
end

