-- ==== Sys2Proof/Config.lean ====
section
/-! DEFINITION. The parameters of R7: those the spec fixes, and the operand width `W`, which it leaves
open (`STEP_CYCLES` and `PORT_PROTOCOL` are read by no rule and stand outside the model: log entry 7). -/

namespace Sys2Proof

/-- The open parameter of one block instance (R7): W = 32·k with 1 ≤ k ≤ 64.
`kPred` is k - 1, so that every value of this type is a legal width. -/
structure Config where
  kPred : Fin 64
  deriving DecidableEq, Repr

namespace Config

/-- `NW` = W / 32, the number of 32-bit words of an operand (R7). -/
def nw (c : Config) : Nat := c.kPred.val + 1

/-- `W` = 32·NW, the width of an operand and of a working register (R7). -/
def width (c : Config) : Nat := 32 * c.nw

/-- The reference configuration: W = 1024, NW = 32 (R7). -/
def reference : Config := ⟨31⟩

/-- The configuration of program P5: W = 64, NW = 2. -/
def twoWords : Config := ⟨1⟩

/-- `ID_VALUE` (R7, R22, R54): the letters "JC" and interface revision 1. -/
def idValue : Word := 0x4A430001#32

theorem nw_pos (c : Config) : 0 < c.nw := Nat.succ_pos _

theorem nw_le (c : Config) : c.nw ≤ 64 := by
  have := c.kPred.isLt
  unfold nw
  omega

end Config

end Sys2Proof
end

