-- ==== Sys2Proof/Syntax.lean ====
section
/-! DEFINITION. What a host can ask of the block: the five rows of the opcode table (`Instr`), the two
levels at which they are encoded (`Encoded`, R46), and the host's own way of writing them (R58 to R62). -/

namespace Sys2Proof

/-- One constructor per row of the opcode table. RD and WR are host transactions (R47); NOP, START and
CLEAR are CTRL command words (R49), kept with their 28 ignored bits [31:4] so that no bit of a word is lost. -/
inductive Instr where
  /-- RD off (R63): read one register slot. -/
  | rd (off : Offset)
  /-- WR off, data (R64): write one register slot. -/
  | wr (off : Offset) (data : Word)
  /-- NOP (R71): CMD = 0x0. -/
  | nop (rsv : BitVec 28)
  /-- START (R72): CMD = 0x1. -/
  | start (rsv : BitVec 28)
  /-- CLEAR (R73): CMD = 0x2. -/
  | clear (rsv : BitVec 28)
  deriving DecidableEq, Repr

/-- The two levels of R46: a transaction, written as its 64-bit trace record (R48), and the command word
that a WR to CTRL carries (R49). -/
inductive Encoded where
  | record (bits : BitVec 64)
  | command (word : Word)
  deriving DecidableEq, Repr

/-- Which operand a host writes with `WROP` (R59). -/
inductive Operand where
  | a | n
  deriving DecidableEq, Repr

/-- `target` of the host's grammar (R58). -/
inductive Target where
  | id | param | ctrl | status | result
  | aWord (i : Nat)
  | nWord (i : Nat)
  /-- A numeral, decoded as an offset by R32. -/
  | offset (o : Nat)
  deriving DecidableEq, Repr

/-- `value` of the host's grammar (R58): a numeral, or a command's name for its CMD value. -/
inductive Value where
  | numeral (v : Nat)
  | nop | start | clear
  deriving DecidableEq, Repr

/-- `stmt` of the host's grammar (R58) with its pseudo-instructions (R59 to R62). A POLL loop is written
with the number of STATUS reads it made, which the host alone decides (I15). -/
inductive Stmt where
  | rd (t : Target)
  | wr (t : Target) (v : Value)
  /-- `WROP X, v` (R59). -/
  | wrop (x : Operand) (v : Nat)
  /-- `WROP X, v, k` (R59): only words 0 to k - 1. -/
  | wropShort (x : Operand) (v : Nat) (k : Nat)
  | nop | start | clear
  /-- `POLL` (R61), having read STATUS `reads` times. -/
  | poll (reads : Nat)
  /-- `JACOBI a, n` (R62), its POLL having read STATUS `reads` times. -/
  | jacobi (a n : Nat) (reads : Nat)
  deriving DecidableEq, Repr

end Sys2Proof
end

