-- ==== Sys2Proof/Machine/State.lean ====
section
/-! DEFINITION. The state: the block's own tuple (R12), and around it the model's record of the outside
world: what comes in at the port and what has gone out (R11, R41). Plain data throughout. -/

namespace Sys2Proof.Machine

/-- The control state (R18). -/
inductive Fsm where
  | idle | busy | done | error
  deriving DecidableEq, Repr

/-- The complete state of one block instance with NW = `nw` (R12). No other state exists in it: ID and
PARAM are constants (R22, R23), STATUS is a view (R28), CTRL stores nothing (R13). -/
structure Block (nw : Nat) where
  /-- A_WORD[0..NW-1] (R14). -/
  aWord : Vector Word nw
  /-- N_WORD[0..NW-1] (R15). -/
  nWord : Vector Word nw
  /-- RESULT (R17). -/
  result : Word
  /-- The control state (R18). -/
  fsm : Fsm
  /-- ERRCODE, 4 bits (R20). -/
  errcode : BitVec 4
  /-- CMDERR, 1 bit, sticky (R21). -/
  cmderr : Bool
  /-- wa, the current argument, W bits (R24). -/
  wa : BitVec (32 * nw)
  /-- wp, the current modulus, W bits (R24). -/
  wp : BitVec (32 * nw)
  /-- wt, the running sign, 1 bit: true stands for -1 (R25). -/
  wt : Bool
  deriving DecidableEq, Repr

/-- Every element at its reset value (R107). -/
def Block.reset (nw : Nat) : Block nw where
  aWord := Vector.replicate nw 0#32
  nWord := Vector.replicate nw 0#32
  result := 0#32
  fsm := .idle
  errcode := 0#4
  cmderr := false
  wa := BitVec.ofNatLT 0 (Nat.two_pow_pos _)
  wp := BitVec.ofNatLT 0 (Nat.two_pow_pos _)
  wt := false

/-- What one step of the model carries out: the turn of one of the three agents of R11. -/
inductive Event where
  /-- The host's next transaction, in its encoding (R46, R47). -/
  | host (e : Encoded)
  /-- The engine's turn: one micro-step if the block is BUSY (R41, R75). -/
  | microStep
  /-- The reset event (R106). -/
  | reset
  deriving DecidableEq, Repr

/-- The machine: one block instance and the two ends of its port.

`cfg` is the parameter W of R7; it rides in the state because the host's interface has one state type, and
no step changes it (log entry 2). `inputs` is what the agents do next, in order (log entry 3): every
interleaving of R41 is some list. `returned` is every word the block has handed back to the host, the newest
first (log entry 4). Only `block` is the spec's state. -/
structure State where
  cfg : Config
  block : Block cfg.nw
  inputs : List Event
  returned : List Word
  deriving DecidableEq, Repr

/-- The reference configuration right after reset (R7, R107); nothing is scheduled at the port and nothing
has been read. -/
def State.reset : State where
  cfg := Config.reference
  block := Block.reset Config.reference.nw
  inputs := []
  returned := []

/-- A step of this block never faults: it has no trap, no bus error and nothing that stops it (R89; 93, end
of part 1). A precondition fault is the state ERROR (R95), not an end of the run. -/
inductive Fault where
  deriving DecidableEq, Repr

/-- Why a step has no meaning. -/
inductive Refusal where
  /-- Raised by no arm of this model: an instruction that would have no meaning yet (safe). -/
  | notModelled (mnemonic : String)
  /-- Raised by the step when the next input is a trace record whose must-be-zero bits are not zero: it
  spells no transaction and a trace decoder refuses it (R48); no port can carry it (safe). -/
  | notATransaction (bits : BitVec 64)
  deriving DecidableEq, Repr

end Sys2Proof.Machine
end

