-- ==== Sys2Proof/Machine/Flags.lean ====
section
/-! DEFINITION. The flags of R26 as a host sees them (STATUS, R28 and R52), the RESULT encoding (R53) and
the running sign with its flips (R25, R77, R78). -/

namespace Sys2Proof.Machine

/-- STATUS.BUSY (R26). -/
def Block.busyFlag {nw : Nat} (b : Block nw) : Bool := b.fsm == .busy

/-- STATUS.DONE (R26). -/
def Block.doneFlag {nw : Nat} (b : Block nw) : Bool := b.fsm == .done

/-- STATUS.ERR (R26). -/
def Block.errFlag {nw : Nat} (b : Block nw) : Bool := b.fsm == .error

/-- STATUS (R28): zeros, ERRCODE, CMDERR, ERR, DONE, BUSY, from bit 31 down to bit 0. -/
def Block.statusWord {nw : Nat} (b : Block nw) : Word :=
  0#24 ++ b.errcode ++ BitVec.ofBool b.cmderr ++ BitVec.ofBool b.errFlag ++ BitVec.ofBool b.doneFlag
    ++ BitVec.ofBool b.busyFlag

/-- `enc(s)` = sext_32(s), the RESULT word of a symbol -1, 0 or +1 (R53). -/
def enc (s : Int) : Word := BitVec.ofInt 32 s

/-- `dec(d)`: the symbol of a RESULT word; any other word is no RESULT value (R53). -/
def dec (d : Word) : Option Int :=
  if d = 0x00000001#32 then some 1
  else if d = 0x00000000#32 then some 0
  else if d = 0xFFFFFFFF#32 then some (-1)
  else none

/-- The sign that wt stands for: 0 is +1, 1 is -1 (R25). -/
def signOf (wt : Bool) : Int := if wt then -1 else 1

/-- HALVE flips the sign when wp mod 8 is 3 or 5 (R77, second supplementary law). -/
def halveFlips (p : Nat) : Bool := p % 8 == 3 || p % 8 == 5

/-- SWAP flips the sign when both are 3 mod 4 (R78, reciprocity). -/
def swapFlips (a p : Nat) : Bool := a % 4 == 3 && p % 4 == 3

end Sys2Proof.Machine
end

