-- ==== Sys2Proof/Machine/Operands.lean ====
section
/-! DEFINITION. Operands: the register an offset selects (R31, R32) and the W-bit value that the words of
an operand stand for (R16). -/

namespace Sys2Proof.Machine

/-- What `decode` of R32 returns. -/
inductive Reg (nw : Nat) where
  | id | param | ctrl | status | result
  | aWord (i : Fin nw)
  | nWord (i : Fin nw)
  | unmapped
  deriving DecidableEq, Repr

/-- eff = off & 0xFFC (R32): bits [1:0] of the offset are ignored (R34). -/
def effOf (off : Offset) : Offset := off &&& 0xFFC#12

/-- `decode(off)` of R32, over the map of R31. -/
def decodeOffset (nw : Nat) (off : Offset) : Reg nw :=
  let eff := (effOf off).toNat
  if eff = 0x000 then .id
  else if eff = 0x004 then .param
  else if eff = 0x008 then .ctrl
  else if eff = 0x00C then .status
  else if eff = 0x010 then .result
  else if h : 0x100 ≤ eff ∧ eff < 0x100 + 4 * nw then .aWord ⟨(eff - 0x100) / 4, by omega⟩
  else if h : 0x200 ≤ eff ∧ eff < 0x200 + 4 * nw then .nWord ⟨(eff - 0x200) / 4, by omega⟩
  else .unmapped

/-- The unsigned value of a list of words, word 0 least significant (R16, R33). -/
def wordsValue : List Word → Nat
  | [] => 0
  | w :: ws => w.toNat + 2 ^ 32 * wordsValue ws

/-- A_VAL or N_VAL: the value of an operand's words (R16). -/
def operandValue {nw : Nat} (ws : Vector Word nw) : Nat := wordsValue ws.toList

/-- A list of words stands for a value below 2 to the power of its number of bits. -/
theorem wordsValue_lt (ws : List Word) : wordsValue ws < 2 ^ (32 * ws.length) := by
  induction ws with
  | nil => simp [wordsValue]
  | cons w ws ih =>
    have hw := w.isLt
    have hpow : 2 ^ (32 * (ws.length + 1)) = 2 ^ 32 * 2 ^ (32 * ws.length) := by
      rw [← Nat.pow_add]
      congr 1
      omega
    simp only [wordsValue, List.length_cons, hpow]
    omega

/-- An operand value lies in [0, 2^W) (R16). -/
theorem operandValue_lt {nw : Nat} (ws : Vector Word nw) : operandValue ws < 2 ^ (32 * nw) := by
  simpa [operandValue] using wordsValue_lt ws.toList

/-- The W-bit register value of an operand: A_VAL or N_VAL as START loads it (R16, R24). -/
def operandBits {nw : Nat} (ws : Vector Word nw) : BitVec (32 * nw) :=
  BitVec.ofNatLT (operandValue ws) (operandValue_lt ws)

/-- A_VAL (R16). -/
def Block.aVal {nw : Nat} (b : Block nw) : Nat := operandValue b.aWord

/-- N_VAL (R16). -/
def Block.nVal {nw : Nat} (b : Block nw) : Nat := operandValue b.nWord

end Sys2Proof.Machine
end

