-- ==== Sys2Proof/Machine/Engine.lean ====
section
/-! DEFINITION. The engine: its three micro-steps FINISH, HALVE and SWAP (R76 to R78) and the choice among
them (R75). The right-hand sides read the values from before the micro-step (R9). -/

namespace Sys2Proof.Machine

variable {nw : Nat}

/-- FINISH (R76): the result is the sign if wp = 1, else 0. -/
def finish (b : Block nw) : Block nw :=
  { b with
    result := if b.wp.toNat = 1 then enc (signOf b.wt) else enc 0
    fsm := .done }

/-- HALVE (R77): divide out one factor of 2. -/
def halve (b : Block nw) : Block nw :=
  { b with
    wt := b.wt ^^ halveFlips b.wp.toNat
    wa := b.wa >>> 1 }

/-- SWAP (R78): reciprocity, then reduction of the old modulus by the new one. -/
def swap (b : Block nw) : Block nw :=
  { b with
    wt := b.wt ^^ swapFlips b.wa.toNat b.wp.toNat
    wa := b.wp % b.wa
    wp := b.wa }

/-- `engine_step()` (R75): the micro-step that wa alone selects. -/
def engineStep (b : Block nw) : Block nw :=
  if b.wa.toNat = 0 then finish b
  else if b.wa.toNat % 2 = 0 then halve b
  else swap b

/-- The engine's turn (R75, R41): one micro-step if it is enabled, that is exactly when fsm = BUSY;
otherwise the engine makes no step. -/
def engineTurn (b : Block nw) : Block nw := if b.fsm = .busy then engineStep b else b

end Sys2Proof.Machine
end

