-- ==== Sys2Proof/Decode.lean ====
section
/-! DEFINITION. Decoding, total on every record and every command word and refusing by name, and the
encoder written from the same formats (R47 to R50). -/

namespace Sys2Proof

/-- Why bits spell no instruction. -/
inductive DecodeError where
  /-- A trace record whose must-be-zero bits are not zero spells no transaction (R48). -/
  | mustBeZero (bits : BitVec 64)
  /-- A command word with CMD 0x3 to 0xF spells no command (R50, R51, R74). -/
  | reservedCommand (word : Word)
  deriving DecidableEq, Repr

/-- CMD = data[3:0] (R49, R50). -/
def cmdOf (w : Word) : BitVec 4 := w.extractLsb' 0 4

/-- The trace record of R48: dir [63], zero [62:44], off [43:32], data [31:0] (zero for RD). -/
def decodeRecord (r : BitVec 64) : Except DecodeError Instr :=
  if r.extractLsb' 44 19 = 0#19 then
    if r.getLsbD 63 then .ok (.wr (r.extractLsb' 32 12) (r.extractLsb' 0 32))
    else if r.extractLsb' 0 32 = 0#32 then .ok (.rd (r.extractLsb' 32 12))
    else .error (.mustBeZero r)
  else .error (.mustBeZero r)

/-- The command word of R49, by the opcode map of R50. -/
def decodeCommand (w : Word) : Except DecodeError Instr :=
  if cmdOf w = 0x0#4 then .ok (.nop (w.extractLsb' 4 28))
  else if cmdOf w = 0x1#4 then .ok (.start (w.extractLsb' 4 28))
  else if cmdOf w = 0x2#4 then .ok (.clear (w.extractLsb' 4 28))
  else .error (.reservedCommand w)

/-- The decoder at both levels of R46. -/
def decode : Encoded → Except DecodeError Instr
  | .record r => decodeRecord r
  | .command w => decodeCommand w

/-- The record of `RD off` (R48). -/
def rdRecord (off : Offset) : BitVec 64 := 0#1 ++ (0#19 ++ (off ++ 0#32))

/-- The record of `WR off, data` (R48). -/
def wrRecord (off : Offset) (data : Word) : BitVec 64 := 1#1 ++ (0#19 ++ (off ++ data))

/-- The command word with ignored bits `rsv` and code `cmd` (R49). -/
def commandWord (rsv : BitVec 28) (cmd : BitVec 4) : Word := rsv ++ cmd

/-- The encoder: each row of the opcode table at its own level. -/
def encode : Instr → Encoded
  | .rd off => .record (rdRecord off)
  | .wr off data => .record (wrRecord off data)
  | .nop rsv => .command (commandWord rsv 0x0#4)
  | .start rsv => .command (commandWord rsv 0x1#4)
  | .clear rsv => .command (commandWord rsv 0x2#4)

/-- The level a row of the opcode table stands at, by its number of bits: RD and WR have 64, the command
words 32. -/
def encodedOf (nbits w : Nat) : Encoded :=
  if nbits ≤ 32 then .command (BitVec.ofNat 32 w) else .record (BitVec.ofNat 64 w)

/-- The instruction that the decoder reads from `nbits` bits of a row of the opcode table. -/
def decodeTableWord (nbits w : Nat) : Option Instr := (decode (encodedOf nbits w)).toOption

end Sys2Proof
end

