-- ==== Sys2Proof/Machine/Ops.lean ====
section
/-! DEFINITION. The shared operations on the block: reading and writing a register (R65, R66), taking a
precondition fault (R95) and leaving it (R97), the three commands and their dispatch (R70 to R74). The block
has no memory, so no operation here touches one (R30). -/

namespace Sys2Proof.Machine

variable {nw : Nat}

/-- `read_value(r)` (R65). -/
def readValue (b : Block nw) : Reg nw → Word
  | .id => Config.idValue
  | .param => BitVec.ofNat 32 nw
  | .ctrl => 0#32
  | .status => b.statusWord
  | .result => b.result
  | .aWord i => b.aWord[i]
  | .nWord i => b.nWord[i]
  | .unmapped => 0#32

/-- `raise PreconditionFault(code)` (R95): the one exception of this block. It enters ERROR and records the
code; no register is saved, no vector is taken, and the operands, CMDERR, wa, wp and wt keep their values. -/
def raisePreconditionFault (code : BitVec 4) (b : Block nw) : Block nw :=
  { b with fsm := .error, errcode := code }

/-- A rejected command: its only effect is CMDERR <- 1 (R70, R91). -/
def reject (b : Block nw) : Block nw := { b with cmderr := true }

/-- `do_start()` (R72): the snapshot is taken here, from the operand words before the command. -/
def doStart (b : Block nw) : Block nw :=
  let b' := { b with result := 0#32 }
  if b.nVal % 2 = 0 then raisePreconditionFault 1#4 b'
  else if b.aVal = 0 then raisePreconditionFault 2#4 b'
  else if b.nVal ≤ b.aVal then raisePreconditionFault 3#4 b'
  else
    { b' with
      wa := operandBits b.aWord
      wp := operandBits b.nWord
      wt := false
      errcode := 0#4
      fsm := .busy }

/-- `do_clear()` (R73), the way out of ERROR, of DONE and of a command error (R97). -/
def doClear (b : Block nw) : Block nw :=
  { b with fsm := .idle, errcode := 0#4, cmderr := false, result := 0#32 }

/-- START as R70 dispatches it: rejected while BUSY. -/
def startCommand (b : Block nw) : Block nw := if b.fsm = .busy then reject b else doStart b

/-- CLEAR as R70 dispatches it: rejected while BUSY. -/
def clearCommand (b : Block nw) : Block nw := if b.fsm = .busy then reject b else doClear b

/-- `command(d)` (R70): the dispatch of a word written to CTRL; d[31:4] is ignored. -/
def command (d : Word) (b : Block nw) : Block nw :=
  if cmdOf d = 0x0#4 then b
  else if cmdOf d ≠ 0x1#4 ∧ cmdOf d ≠ 0x2#4 then reject b
  else if cmdOf d = 0x1#4 then startCommand b
  else clearCommand b

/-- `write_effect(r, data)` (R66). -/
def writeEffect (b : Block nw) (r : Reg nw) (data : Word) : Block nw :=
  match r with
  | .ctrl => command data b
  | .aWord i => { b with aWord := b.aWord.set i.val data i.isLt }
  | .nWord i => { b with nWord := b.nWord.set i.val data i.isLt }
  | .id => b
  | .param => b
  | .status => b
  | .result => b
  | .unmapped => b

end Sys2Proof.Machine
end

