-- ==== Sys2Proof/Machine/Agents.lean ====
section
/-! DEFINITION. The turns of the agents that issue no transaction: the engine (R75), the reset event
(R106), and a host that does nothing. -/

namespace Sys2Proof.Machine

/-- The engine's turn in the machine (R75). -/
def turnOfEngine (s : State) : State := { s with block := engineTurn s.block }

/-- The reset event (R106): every element at its reset value in one step, whatever the state. The width is
the instance's own and stays; the words the host has already read stay read. -/
def turnOfReset (s : State) : State := { s with block := Block.reset s.cfg.nw }

/-- The host issues nothing more: the engine steps while BUSY (its fairness, R75), and a block that is not
BUSY is quiescent (R105). -/
def hostIdle (s : State) : State := turnOfEngine s

end Sys2Proof.Machine
end

