-- ==== Sys2Proof/Machine/Access.lean ====
section
/-! DEFINITION. The register access transactions RD and WR (R63, R64). -/

namespace Sys2Proof.Machine

/-- RD off (R63): the word of the selected register goes back to the host; the block does not change (R67). -/
def execRd (off : Offset) (s : State) : Host.Outcome State Fault Refusal :=
  .next { s with returned := readValue s.block (decodeOffset s.cfg.nw off) :: s.returned }

/-- WR off, data (R64): the write effect on the selected register; nothing is returned. -/
def execWr (off : Offset) (data : Word) (s : State) : Host.Outcome State Fault Refusal :=
  .next { s with block := writeEffect s.block (decodeOffset s.cfg.nw off) data }

end Sys2Proof.Machine
end

