-- ==== Sys2Proof/Machine/Commands.lean ====
section
/-! DEFINITION. The commands NOP, START and CLEAR (R71 to R73), each the effect of its word written to
CTRL, and what happens to bits that spell no instruction (R48, R74). The ignored bits have no effect (R49). -/

namespace Sys2Proof.Machine

/-- NOP (R71): no effect, in any state. -/
def execNop (_rsv : BitVec 28) (s : State) : Host.Outcome State Fault Refusal := .next s

/-- START (R72): rejected while BUSY (R70); otherwise a computation begins or a precondition fault is
recorded. -/
def execStart (_rsv : BitVec 28) (s : State) : Host.Outcome State Fault Refusal :=
  .next { s with block := startCommand s.block }

/-- CLEAR (R73): rejected while BUSY (R70); otherwise back to IDLE. -/
def execClear (_rsv : BitVec 28) (s : State) : Host.Outcome State Fault Refusal :=
  .next { s with block := clearCommand s.block }

/-- Bits that spell no instruction. A reserved command code is a command error and nothing else (R74); a
record that spells no transaction is refused (R48). -/
def undecodable (e : DecodeError) (s : State) : Host.Outcome State Fault Refusal :=
  match e with
  | .reservedCommand _ => .next { s with block := reject s.block }
  | .mustBeZero bits => .refused (.notATransaction bits)

end Sys2Proof.Machine
end

