-- ==== Sys2Proof/Machine/Dispatch.lean ====
section
/-! DEFINITION. The dispatch of an instruction to its meaning. -/

namespace Sys2Proof.Machine

def exec (i : Instr) (s : State) : Host.Outcome State Fault Refusal :=
  match i with
  | .rd off => Sys2Proof.Machine.execRd off s
  | .wr off data => Sys2Proof.Machine.execWr off data s
  | .nop rsv => Sys2Proof.Machine.execNop rsv s
  | .start rsv => Sys2Proof.Machine.execStart rsv s
  | .clear rsv => Sys2Proof.Machine.execClear rsv s

end Sys2Proof.Machine
end

