-- ==== Sys2Proof/WellFormed.lean ====
section
/-! DEFINITION. Which terms are well formed. An `Instr` always is: the widths of its fields are in their
types and the hardware accepts every value of each field (R34, R49). A host's statement (R58) is checked
against the configuration: its indices, its numerals and its counts. -/

namespace Sys2Proof

/-- Every instruction term is well formed: R34 accepts every offset, R14 every data word, R49 every value
of the ignored bits. -/
def Instr.wellFormed : Instr → Bool
  | .rd _ => true
  | .wr _ _ => true
  | .nop _ => true
  | .start _ => true
  | .clear _ => true

/-- R58: a word index is below NW; an offset numeral has 12 bits (R29). -/
def Target.wellFormed (c : Config) : Target → Bool
  | .aWord i => i < c.nw
  | .nWord i => i < c.nw
  | .offset o => o < 4096
  | .id => true
  | .param => true
  | .ctrl => true
  | .status => true
  | .result => true

/-- R47: the data of a WR has 32 bits. -/
def Value.wellFormed : Value → Bool
  | .numeral v => v < 2 ^ 32
  | .nop => true
  | .start => true
  | .clear => true

/-- R58 to R62: `WROP` takes a value below 2^W (R59), its short form writes at least one and at most NW
words, and a POLL loop reads at least once (I15). -/
def Stmt.wellFormed (c : Config) : Stmt → Bool
  | .rd t => t.wellFormed c
  | .wr t v => t.wellFormed c && v.wellFormed
  | .wrop _ v => v < 2 ^ c.width
  | .wropShort _ v k => v < 2 ^ c.width && 1 ≤ k && k ≤ c.nw
  | .nop => true
  | .start => true
  | .clear => true
  | .poll reads => 1 ≤ reads
  | .jacobi a n reads => a < 2 ^ c.width && n < 2 ^ c.width && 1 ≤ reads

end Sys2Proof
end

