-- ==== Sys2Proof/Machine/HostScript.lean ====
section
/-! DEFINITION. The expansion of a host's statements (R58) and pseudo-instructions (R59 to R62) into
transactions, and their placement at the port. -/

namespace Sys2Proof.Machine

/-- The offset of a target (R31, R58). -/
def targetOffset : Target → Offset
  | .id => 0x000#12
  | .param => 0x004#12
  | .ctrl => 0x008#12
  | .status => 0x00C#12
  | .result => 0x010#12
  | .aWord i => BitVec.ofNat 12 (0x100 + 4 * i)
  | .nWord i => BitVec.ofNat 12 (0x200 + 4 * i)
  | .offset o => BitVec.ofNat 12 o

/-- The data word of a value; a command's name stands for its CMD value (R58). -/
def valueWord : Value → Word
  | .numeral v => BitVec.ofNat 32 v
  | .nop => 0x00000000#32
  | .start => 0x00000001#32
  | .clear => 0x00000002#32

/-- X_WORD[i] of `WROP X, v` (R59). -/
def operandTarget : Operand → Nat → Target
  | .a, i => .aWord i
  | .n, i => .nWord i

/-- Word i of a value: (v >> (32·i)) mod 2^32 (R56, R59). -/
def wordOf (v i : Nat) : Word := BitVec.ofNat 32 (v >>> (32 * i))

/-- The writes of words 0 to k - 1 in ascending order (R59). -/
def wropWrites (x : Operand) (v k : Nat) : List Instr :=
  (List.range k).map fun i => .wr (targetOffset (operandTarget x i)) (wordOf v i)

/-- The STATUS reads of a POLL loop (R61). -/
def pollReads (reads : Nat) : List Instr := List.replicate reads (.rd 0x00C#12)

/-- The transactions of a statement on a block with NW = `nw` (R58 to R62). -/
def expand (nw : Nat) : Stmt → List Instr
  | .rd t => [.rd (targetOffset t)]
  | .wr t v => [.wr (targetOffset t) (valueWord v)]
  | .wrop x v => wropWrites x v nw
  | .wropShort x v k => wropWrites x v k
  | .nop => [.wr 0x008#12 0x00000000#32]
  | .start => [.wr 0x008#12 0x00000001#32]
  | .clear => [.wr 0x008#12 0x00000002#32]
  | .poll reads => pollReads reads
  | .jacobi a n reads =>
    wropWrites .n n nw ++ wropWrites .a a nw ++ [.wr 0x008#12 0x00000001#32] ++ pollReads reads
      ++ [.rd 0x010#12]

/-- A host program at the port: its transactions in order, each in its encoding (R40, R48). -/
def scriptEvents (nw : Nat) (script : List Stmt) : List Event :=
  (script.flatMap (expand nw)).map fun i => .host (encode i)

end Sys2Proof.Machine
end

