-- ==== Sys2Proof/Machine/Step.lean ====
section
/-! DEFINITION. One step of the machine: the next input's agent takes its turn (R11, R41). -/

namespace Sys2Proof.Machine

/-- One step: the first entry of `inputs` is taken and carried out whole (R36, R40); with no entry left the
host is idle. A host entry is decoded and executed. -/
def step (s : State) : Host.Outcome State Fault Refusal :=
  match s.inputs with
  | [] => .next (hostIdle s)
  | .microStep :: rest => .next (turnOfEngine { s with inputs := rest })
  | .reset :: rest => .next (turnOfReset { s with inputs := rest })
  | .host e :: rest =>
    match decode e with
    | .ok i => exec i { s with inputs := rest }
    | .error err => undecodable err { s with inputs := rest }

/-- `s` with a row of the opcode table as the next input: a 64-bit row is the host's next transaction, a
32-bit row the command word that its next WR to CTRL carries (R46). -/
def State.withFetchWord (s : State) (nbits w : Nat) : State :=
  { s with inputs := .host (encodedOf nbits w) :: s.inputs }

end Sys2Proof.Machine
end

