-- ==== Sys2Proof/Safety.lean ====
section
/-! DEFINITION. The terms that claims about the block are made in: the function the engine computes (R79),
bit lengths (R82), which command the next input carries (R70), the invariants of the state (R17, R20, R80),
and runs. -/

namespace Sys2Proof.Machine

variable {nw : Nat}

/-! The function the engine computes. -/

/-- `go` of R79 with a bound on the number of calls. -/
def goWithin : Nat → Nat → Nat → Int → Int
  | 0, _, _, _ => 0
  | fuel + 1, a, p, s =>
    if a = 0 then (if p = 1 then s else 0)
    else if a % 2 = 0 then goWithin fuel (a / 2) p (if halveFlips p then -s else s)
    else goWithin fuel (p % a) a (if swapFlips a p then -s else s)

/-- `go(a, p, s)` of R79. Every call has a smaller first argument, so a + 1 calls are enough. -/
def go (a p : Nat) (s : Int) : Int := goWithin (a + 1) a p s

/-- `jac(a, n)` of R79. -/
def jac (a n : Nat) : Int := go a n 1

/-- The number of bits of n, with bitlen(0) = 0 (R82). -/
def bitlen (n : Nat) : Nat := if n = 0 then 0 else n.log2 + 1

/-- The block after `m` turns of the engine and nothing else. -/
def microSteps : Nat → Block nw → Block nw
  | 0, b => b
  | m + 1, b => microSteps m (engineTurn b)

/-! What the next input is. -/

/-- The data of a WR to CTRL, if the encoded transaction is one (R46). -/
def ctrlData (nw : Nat) : Encoded → Option Word
  | .command w => some w
  | .record r =>
    match decodeRecord r with
    | .ok (.wr off data) => if decodeOffset nw off = .ctrl then some data else none
    | .ok (.rd _) => none
    | .ok (.nop _) => none
    | .ok (.start _) => none
    | .ok (.clear _) => none
    | .error _ => none

/-- CMD of the command that the next input writes to CTRL, if it writes one (R70). -/
def State.nextCommand (s : State) : Option (BitVec 4) :=
  match s.inputs with
  | .host e :: _ => (ctrlData s.cfg.nw e).map cmdOf
  | .microStep :: _ => none
  | .reset :: _ => none
  | [] => none

/-- The next input is a START that R70 accepts. -/
def State.acceptsStart (s : State) : Prop := s.nextCommand = some 0x1#4 ∧ s.block.fsm ≠ .busy

/-- The next input is a CLEAR that R70 accepts. -/
def State.acceptsClear (s : State) : Prop := s.nextCommand = some 0x2#4 ∧ s.block.fsm ≠ .busy

/-- The next input is a command that R70 rejects (R91): a reserved code, or START or CLEAR while BUSY. -/
def State.rejectsCommand (s : State) : Prop :=
  ∃ c, s.nextCommand = some c ∧ (3 ≤ c.toNat ∨ (c ≠ 0x0#4 ∧ s.block.fsm = .busy))

/-- The next input is the reset event (R106). -/
def State.takesReset (s : State) : Prop := s.inputs.head? = some .reset

/-- The next step is a micro-step (R75): the block is BUSY and it is the engine's turn, or the host is
idle. -/
def State.engineRuns (s : State) : Prop :=
  s.block.fsm = .busy ∧ (s.inputs.head? = some .microStep ∨ s.inputs = [])

/-! What holds of a state. -/

/-- The operands satisfy the precondition of a START (R2, R72): N odd and 0 < A < N. -/
def Block.preconditionHolds (b : Block nw) : Prop := b.nVal % 2 = 1 ∧ 0 < b.aVal ∧ b.aVal < b.nVal

/-- What every reachable block satisfies: RESULT is an encoding and is 0 outside DONE (R17, R65), ERRCODE
is 1, 2 or 3 in ERROR and 0 elsewhere (R20), and a BUSY engine has an odd modulus above its argument (R80). -/
structure Block.Legal (b : Block nw) : Prop where
  result_value : b.result = 0x00000001#32 ∨ b.result = 0x00000000#32 ∨ b.result = 0xFFFFFFFF#32
  result_zero : b.fsm ≠ .done → b.result = 0x00000000#32
  errcode_error : b.fsm = .error → b.errcode = 1#4 ∨ b.errcode = 2#4 ∨ b.errcode = 3#4
  errcode_zero : b.fsm ≠ .error → b.errcode = 0#4
  busy_odd : b.fsm = .busy → b.wp.toNat % 2 = 1
  busy_lt : b.fsm = .busy → b.wa.toNat < b.wp.toNat

/-- The invariants of R80 in a BUSY state whose computation has the snapshot (A0, N0). -/
structure Block.ComputesFrom (A0 N0 : Nat) (b : Block nw) : Prop where
  busy : b.fsm = .busy
  wp_odd : b.wp.toNat % 2 = 1
  wp_pos : 1 ≤ b.wp.toNat
  wp_le : b.wp.toNat ≤ N0
  wa_lt : b.wa.toNat < b.wp.toNat
  wa_fits : b.wa.toNat < 2 ^ (32 * nw)
  wp_fits : b.wp.toNat < 2 ^ (32 * nw)
  gcd_eq : Nat.gcd b.wa.toNat b.wp.toNat = Nat.gcd A0 N0

/-! Runs. -/

/-- `k` steps, stopping at the first refusal. -/
def run : Nat → State → Host.Outcome State Fault Refusal
  | 0, s => .next s
  | k + 1, s =>
    match step s with
    | .next t => run k t
    | .fault f => .fault f
    | .refused r => .refused r

/-- An input that spells something: any turn but a record that spells no transaction (R48). -/
def Event.spells : Event → Bool
  | .microStep => true
  | .reset => true
  | .host (.command _) => true
  | .host (.record r) => (decodeRecord r).toOption.isSome

/-- The host's transactions among the inputs, in order (R40). -/
def hostInputs (evs : List Event) : List Encoded :=
  evs.filterMap fun
    | .host e => some e
    | .microStep => none
    | .reset => none

/-- How many turns the engine has among the inputs. -/
def engineTurns (evs : List Event) : Nat := evs.count .microStep

end Sys2Proof.Machine
end

