-- ==== Sys2Proof/Certificates/Slice0/Obligations.lean ====
section
/-! DEFINITION. The statements for the provers, in the order of the spec's files: encoding, address space,
transactions, flags, commands, faults, the engine, whole runs, reset. -/

open Sys2Proof Sys2Proof.Machine

/-! ## Encoding (30_encoding.md) -/

/-- R48: which record spells which transaction; a record whose must-be-zero bits are not zero spells none;
the rule's three examples. -/
def Obligations.TraceRecordFormat : Prop :=
  (∀ (r : BitVec 64) (off : Offset), decode (.record r) = .ok (.rd off) ↔
      r.getLsbD 63 = false ∧ r.extractLsb' 44 19 = 0#19 ∧ r.extractLsb' 32 12 = off ∧ r.extractLsb' 0 32 = 0#32)
  ∧ (∀ (r : BitVec 64) (off : Offset) (data : Word), decode (.record r) = .ok (.wr off data) ↔
      r.getLsbD 63 = true ∧ r.extractLsb' 44 19 = 0#19 ∧ r.extractLsb' 32 12 = off ∧ r.extractLsb' 0 32 = data)
  ∧ (∀ r : BitVec 64,
      (r.extractLsb' 44 19 ≠ 0#19 ∨ (r.getLsbD 63 = false ∧ r.extractLsb' 0 32 ≠ 0#32)) →
      decode (.record r) = .error (.mustBeZero r))
  ∧ decode (.record 0x8000000800000001#64) = .ok (.wr 0x008#12 0x00000001#32)
  ∧ decode (.record 0x0000000C00000000#64) = .ok (.rd 0x00C#12)
  ∧ decode (.record 0x8000020000000015#64) = .ok (.wr 0x200#12 0x00000015#32)

/-- R50: the command is selected by CMD = data[3:0] alone, and START is the one command that computes. -/
def Obligations.CommandOpcodeMap : Prop :=
  (∀ w : Word, w.toNat % 16 = 0 → decode (.command w) = .ok (.nop (w.extractLsb' 4 28)))
  ∧ (∀ w : Word, w.toNat % 16 = 1 → decode (.command w) = .ok (.start (w.extractLsb' 4 28)))
  ∧ (∀ w : Word, w.toNat % 16 = 2 → decode (.command w) = .ok (.clear (w.extractLsb' 4 28)))
  ∧ (∀ w : Word, 3 ≤ w.toNat % 16 → decode (.command w) = .error (.reservedCommand w))
  ∧ (∀ (s t : State) (off : Offset) (data : Word), exec (.wr off data) s = .next t →
      s.block.fsm ≠ .busy → t.block.fsm = .busy → data.toNat % 16 = 1)

/-- R46 to R50: no bit of an encoding is lost; every instruction decodes back from its own encoding. -/
def Obligations.DecodeOfEncode : Prop := ∀ i : Instr, decode (encode i) = .ok i

/-- R46 to R50: what decodes to an instruction is that instruction's encoding and no other bits. -/
def Obligations.EncodeOfDecode : Prop := ∀ (e : Encoded) (i : Instr), decode e = .ok i → encode i = e

/-- Words written out from R48 and R49, one for every row of the opcode table, decode to their rows. -/
def Obligations.KnownWordsDecode : Prop :=
  decodeTableWord 64 0x0000010400000000 = some (.rd 0x104#12)
  ∧ decodeTableWord 64 0x80000204DEADBEEF = some (.wr 0x204#12 0xDEADBEEF#32)
  ∧ decodeTableWord 32 0xFFFFFFF0 = some (.nop 0xFFFFFFF#28)
  ∧ decodeTableWord 32 0xABCDE001 = some (.start 0xABCDE00#28)
  ∧ decodeTableWord 32 0x00000002 = some (.clear 0#28)
  ∧ decodeTableWord 32 0x00000013 = none
  ∧ decodeTableWord 64 0x0000000000000001 = none

/-- A step takes the next input and runs the instruction its bits decode to (R40, R46; the list of inputs is
the model's own, log entry 3). -/
def Obligations.StepRunsDecodedInstruction : Prop :=
  (∀ (s : State) (e : Encoded) (rest : List Event) (i : Instr), s.inputs = .host e :: rest →
      decode e = .ok i → step s = exec i { s with inputs := rest })
  ∧ (∀ (s : State) (nbits w : Nat) (i : Instr), decodeTableWord nbits w = some i →
      step (s.withFetchWord nbits w) = exec i s)

/-- Each command pseudo-instruction is its WR to CTRL (R60); and a command word at the port, which is the
model's own input form (log entry 5), acts as the WR to CTRL that carries it, whatever the word (R46). -/
def Obligations.CommandIsWriteToCtrl : Prop :=
  (∀ s : State, exec (.nop 0#28) s = exec (.wr 0x008#12 0x00000000#32) s
      ∧ exec (.start 0#28) s = exec (.wr 0x008#12 0x00000001#32) s
      ∧ exec (.clear 0#28) s = exec (.wr 0x008#12 0x00000002#32) s)
  ∧ (∀ c : Config, expand c.nw .nop = [.wr 0x008#12 0x00000000#32]
      ∧ expand c.nw .start = [.wr 0x008#12 0x00000001#32]
      ∧ expand c.nw .clear = [.wr 0x008#12 0x00000002#32])
  ∧ (∀ (s : State) (w : Word) (rest : List Event),
      step { s with inputs := .host (.command w) :: rest }
        = step { s with inputs := .host (.record (wrRecord 0x008#12 w)) :: rest })

/-- R49: bits [31:4] of a command word have no effect. -/
def Obligations.IgnoredCommandBits : Prop :=
  (∀ (s : State) (off : Offset) (d d' : Word), decodeOffset s.cfg.nw off = .ctrl →
      d.toNat % 16 = d'.toNat % 16 → exec (.wr off d) s = exec (.wr off d') s)
  ∧ (∀ (s : State) (r r' : BitVec 28), exec (.nop r) s = exec (.nop r') s
      ∧ exec (.start r) s = exec (.start r') s ∧ exec (.clear r) s = exec (.clear r') s)

/-! ## Address space (20_memory.md) -/

/-- R31, R32: exactly which register each offset selects, for every legal number of words. -/
def Obligations.RegisterMap : Prop :=
  ∀ (c : Config) (off : Offset), let eff := (off &&& 0xFFC#12).toNat
    (decodeOffset c.nw off = .id ↔ eff = 0x000)
    ∧ (decodeOffset c.nw off = .param ↔ eff = 0x004)
    ∧ (decodeOffset c.nw off = .ctrl ↔ eff = 0x008)
    ∧ (decodeOffset c.nw off = .status ↔ eff = 0x00C)
    ∧ (decodeOffset c.nw off = .result ↔ eff = 0x010)
    ∧ (∀ i : Fin c.nw, decodeOffset c.nw off = .aWord i ↔ eff = 0x100 + 4 * i.val)
    ∧ (∀ i : Fin c.nw, decodeOffset c.nw off = .nWord i ↔ eff = 0x200 + 4 * i.val)
    ∧ (decodeOffset c.nw off = .unmapped ↔
        (0x014 ≤ eff ∧ eff ≤ 0x0FC) ∨ (0x100 + 4 * c.nw ≤ eff ∧ eff ≤ 0x1FC)
          ∨ (0x200 + 4 * c.nw ≤ eff ∧ eff ≤ 0x2FC) ∨ 0x300 ≤ eff)

/-- R34: every offset is accepted, and one with off[1:0] ≠ 0 reaches the word at off & 0xFFC. -/
def Obligations.EveryOffsetAccepted : Prop :=
  ∀ (s : State) (off : Offset) (data : Word),
    exec (.rd off) s = exec (.rd (off &&& 0xFFC#12)) s
    ∧ exec (.wr off data) s = exec (.wr (off &&& 0xFFC#12) data) s
    ∧ (∃ t, exec (.rd off) s = .next t) ∧ (∃ t, exec (.wr off data) s = .next t)

/-- R38: an unmapped slot and CTRL read 0; a write to an unmapped slot or a read-only register changes
nothing at all. -/
def Obligations.UnmappedAndWrongDirection : Prop :=
  ∀ (s : State) (off : Offset) (data : Word), let eff := (off &&& 0xFFC#12).toNat
    let unmapped := (0x014 ≤ eff ∧ eff ≤ 0x0FC) ∨ (0x100 + 4 * s.cfg.nw ≤ eff ∧ eff ≤ 0x1FC)
      ∨ (0x200 + 4 * s.cfg.nw ≤ eff ∧ eff ≤ 0x2FC) ∨ 0x300 ≤ eff
    (unmapped ∨ eff = 0x008 → exec (.rd off) s = .next { s with returned := 0#32 :: s.returned })
    ∧ (unmapped ∨ eff = 0x000 ∨ eff = 0x004 ∨ eff = 0x00C ∨ eff = 0x010 → exec (.wr off data) s = .next s)

/-- R16: an operand's value is the sum of its words at their places, word 0 least significant, below 2^W. -/
def Obligations.OperandIsSumOfWords : Prop :=
  ∀ (nw : Nat) (b : Block nw),
    b.aVal = ∑ i : Fin nw, b.aWord[i].toNat * 2 ^ (32 * i.val)
    ∧ b.nVal = ∑ i : Fin nw, b.nWord[i].toNat * 2 ^ (32 * i.val)
    ∧ b.aVal < 2 ^ (32 * nw) ∧ b.nVal < 2 ^ (32 * nw)

/-! ## Transactions (40_register_access.md) -/

/-- R65: what a read of each register answers, and that it does answer; in a legal state RESULT reads 0
outside DONE. Nothing else of the machine changes. -/
def Obligations.ReadReturnsRegister : Prop :=
  ∀ (s : State) (off : Offset), let eff := (off &&& 0xFFC#12).toNat
    let answers := fun d : Word => exec (.rd off) s = .next { s with returned := d :: s.returned }
    (eff = 0x000 → answers 0x4A430001#32)
    ∧ (eff = 0x004 → answers (BitVec.ofNat 32 s.cfg.nw))
    ∧ (eff = 0x008 → answers 0x00000000#32)
    ∧ (eff = 0x00C → answers (0#24 ++ s.block.errcode ++ BitVec.ofBool s.block.cmderr
          ++ BitVec.ofBool (s.block.fsm == .error) ++ BitVec.ofBool (s.block.fsm == .done)
          ++ BitVec.ofBool (s.block.fsm == .busy)))
    ∧ (eff = 0x010 → answers s.block.result)
    ∧ (∀ i : Fin s.cfg.nw, eff = 0x100 + 4 * i.val → answers s.block.aWord[i])
    ∧ (∀ i : Fin s.cfg.nw, eff = 0x200 + 4 * i.val → answers s.block.nWord[i])
    ∧ (decodeOffset s.cfg.nw off = .unmapped → answers 0x00000000#32)
    ∧ (s.block.Legal → s.block.fsm ≠ .done → eff = 0x010 → answers 0x00000000#32)

/-- R67: RD leaves the block unchanged in every state and at every offset, reading the same offset again
answers the same word, and a step whose next input is the record of the RD does exactly that. -/
def Obligations.ReadLeavesBlockUnchanged : Prop :=
  ∀ (s : State) (off : Offset), ∃ d : Word,
    exec (.rd off) s = .next { s with returned := d :: s.returned }
    ∧ exec (.rd off) { s with returned := d :: s.returned } = .next { s with returned := d :: d :: s.returned }
    ∧ (∀ rest, s.inputs = .host (encode (.rd off)) :: rest →
        step s = .next { s with inputs := rest, returned := d :: s.returned })

/-- R66: the effect of a write on each register. -/
def Obligations.WriteEffectOnRegister : Prop :=
  ∀ (s : State) (off : Offset) (data : Word), let eff := (off &&& 0xFFC#12).toNat
    (eff = 0x008 → exec (.wr off data) s = .next { s with block := command data s.block })
    ∧ (∀ i : Fin s.cfg.nw, eff = 0x100 + 4 * i.val → exec (.wr off data) s =
        .next { s with block := { s.block with aWord := s.block.aWord.set i.val data i.isLt } })
    ∧ (∀ i : Fin s.cfg.nw, eff = 0x200 + 4 * i.val → exec (.wr off data) s =
        .next { s with block := { s.block with nWord := s.block.nWord.set i.val data i.isLt } })
    ∧ (eff = 0x000 ∨ eff = 0x004 ∨ eff = 0x00C ∨ eff = 0x010 ∨ decodeOffset s.cfg.nw off = .unmapped →
        exec (.wr off data) s = .next s)

/-- R14, R15, R40: in every state a written operand word reads back at once, and every other operand word
reads as before. -/
def Obligations.OperandWordReadsBack : Prop :=
  ∀ (s : State) (i : Fin s.cfg.nw) (data : Word),
    (∃ t, exec (.wr (targetOffset (.aWord i.val)) data) s = .next t
      ∧ exec (.rd (targetOffset (.aWord i.val))) t = .next { t with returned := data :: s.returned }
      ∧ (∀ j : Fin s.cfg.nw, j ≠ i → exec (.rd (targetOffset (.aWord j.val))) t =
          .next { t with returned := s.block.aWord[j] :: s.returned })
      ∧ (∀ j : Fin s.cfg.nw, exec (.rd (targetOffset (.nWord j.val))) t =
          .next { t with returned := s.block.nWord[j] :: s.returned }))
    ∧ (∃ t, exec (.wr (targetOffset (.nWord i.val)) data) s = .next t
      ∧ exec (.rd (targetOffset (.nWord i.val))) t = .next { t with returned := data :: s.returned }
      ∧ (∀ j : Fin s.cfg.nw, j ≠ i → exec (.rd (targetOffset (.nWord j.val))) t =
          .next { t with returned := s.block.nWord[j] :: s.returned })
      ∧ (∀ j : Fin s.cfg.nw, exec (.rd (targetOffset (.aWord j.val))) t =
          .next { t with returned := s.block.aWord[j] :: s.returned }))

/-- The frame of WR (R64, R66): a write that is no command changes no flag, no working register and nothing
outside the operand words; a write to an A word leaves every N word, and the other way round. -/
def Obligations.WriteFrame : Prop :=
  ∀ (s t : State) (off : Offset) (data : Word), exec (.wr off data) s = .next t →
    t.cfg = s.cfg ∧ t.inputs = s.inputs ∧ t.returned = s.returned
    ∧ (decodeOffset s.cfg.nw off ≠ .ctrl →
        t.block.result = s.block.result ∧ t.block.fsm = s.block.fsm ∧ t.block.errcode = s.block.errcode
        ∧ t.block.cmderr = s.block.cmderr ∧ t.block.wa.toNat = s.block.wa.toNat
        ∧ t.block.wp.toNat = s.block.wp.toNat ∧ t.block.wt = s.block.wt)
    ∧ ((∀ i, decodeOffset s.cfg.nw off ≠ .aWord i) → t.block.aWord.toList = s.block.aWord.toList)
    ∧ ((∀ i, decodeOffset s.cfg.nw off ≠ .nWord i) → t.block.nWord.toList = s.block.nWord.toList)
    ∧ (∀ i, decodeOffset s.cfg.nw off = .aWord i → ∀ j, j ≠ i.val →
        t.block.aWord.toList[j]? = s.block.aWord.toList[j]?)
    ∧ (∀ i, decodeOffset s.cfg.nw off = .nWord i → ∀ j, j ≠ i.val →
        t.block.nWord.toList[j]? = s.block.nWord.toList[j]?)

/-! ## Constants and views (10_state.md) -/

/-- R22, R23: ID and PARAM read their constants in every state, a write to either is ignored, and no step
changes the width that PARAM shows. -/
def Obligations.IdAndParamAreConstant : Prop :=
  (∀ (s : State) (off : Offset) (data : Word), (off &&& 0xFFC#12) = 0x000#12 →
      exec (.rd off) s = .next { s with returned := 0x4A430001#32 :: s.returned }
      ∧ exec (.wr off data) s = .next s)
  ∧ (∀ (s : State) (off : Offset) (data : Word), (off &&& 0xFFC#12) = 0x004#12 →
      ∃ d : Word, exec (.rd off) s = .next { s with returned := d :: s.returned }
        ∧ (d.extractLsb' 0 16).toNat = s.cfg.nw ∧ (d.extractLsb' 16 16) = 0#16
        ∧ exec (.wr off data) s = .next s)
  ∧ (0x4A430001#32).extractLsb' 16 16 = 0x4A43#16 ∧ (0x4A430001#32).extractLsb' 0 16 = 0x0001#16
  ∧ BitVec.ofNat 32 Config.reference.nw = 0x00000020#32
  ∧ (∀ s t : State, step s = .next t → t.cfg = s.cfg)

/-- R28: the fields of the STATUS word that a read returns, in every state; in a legal state it has
only its legal values; at reset it is 0. -/
def Obligations.StatusWordFormat : Prop :=
  (∀ s : State, ∃ d : Word, exec (.rd 0x00C#12) s = .next { s with returned := d :: s.returned }
      ∧ (d.getLsbD 0 = true ↔ s.block.fsm = .busy)
      ∧ (d.getLsbD 1 = true ↔ s.block.fsm = .done)
      ∧ (d.getLsbD 2 = true ↔ s.block.fsm = .error)
      ∧ d.getLsbD 3 = s.block.cmderr
      ∧ d.extractLsb' 4 4 = s.block.errcode
      ∧ d.extractLsb' 8 24 = 0#24
      ∧ (d.extractLsb' 0 3 = 0b000#3 ∨ d.extractLsb' 0 3 = 0b001#3 ∨ d.extractLsb' 0 3 = 0b010#3
          ∨ d.extractLsb' 0 3 = 0b100#3)
      ∧ (d.extractLsb' 0 3 = 0b000#3 ↔ s.block.fsm = .idle)
      ∧ (s.block.Legal → if d.getLsbD 2 = true
          then d.extractLsb' 4 4 = 1#4 ∨ d.extractLsb' 4 4 = 2#4 ∨ d.extractLsb' 4 4 = 3#4
          else d.extractLsb' 4 4 = 0#4))
  ∧ exec (.rd 0x00C#12) State.reset = .next { State.reset with returned := [0x00000000#32] }

/-- R53: the encoding of a symbol is its 32-bit two's complement pattern, `dec` is its inverse and reads no
other word; in a legal state RESULT holds no other word, and outside DONE, where 0 means no result, it
holds 0. -/
def Obligations.ResultEncoding : Prop :=
  enc 1 = 0x00000001#32 ∧ enc 0 = 0x00000000#32 ∧ enc (-1) = 0xFFFFFFFF#32
  ∧ (∀ s : Int, s = 1 ∨ s = 0 ∨ s = -1 → (enc s).toInt = s ∧ dec (enc s) = some s)
  ∧ (∀ (d : Word) (s : Int), dec d = some s → (s = 1 ∨ s = 0 ∨ s = -1) ∧ enc s = d)
  ∧ (∀ (nw : Nat) (b : Block nw), b.Legal → (∃ s : Int, dec b.result = some s)
      ∧ (b.fsm ≠ .done → b.result = 0x00000000#32))

/-- R17: who writes RESULT and what: an accepted START and an accepted CLEAR write 0, FINISH the symbol,
reset 0, nothing else writes it; in a legal state its value is one of the three encodings. -/
def Obligations.ResultWriters : Prop :=
  (∀ s t : State, step s = .next t →
      (s.acceptsStart → t.block.result = 0#32) ∧ (s.acceptsClear → t.block.result = 0#32)
      ∧ (s.takesReset → t.block.result = 0#32)
      ∧ (s.engineRuns → s.block.wa.toNat = 0 →
          t.block.result = if s.block.wp.toNat = 1 then (if s.block.wt then 0xFFFFFFFF#32 else 0x00000001#32)
            else 0x00000000#32)
      ∧ (t.block.result ≠ s.block.result → s.acceptsStart ∨ s.acceptsClear ∨ s.takesReset
          ∨ (s.engineRuns ∧ s.block.wa.toNat = 0)))
  ∧ (∀ (nw : Nat) (b : Block nw), b.Legal →
      b.result = 0x00000001#32 ∨ b.result = 0x00000000#32 ∨ b.result = 0xFFFFFFFF#32)
  ∧ State.reset.block.result = 0x00000000#32

/-- R18: the control state changes only as the table of R18 says, and no read but that of STATUS depends on
it. -/
def Obligations.FsmTransitions : Prop :=
  (∀ s t : State, step s = .next t → t.block.fsm ≠ s.block.fsm →
      (s.takesReset ∧ t.block.fsm = .idle)
      ∨ (s.acceptsClear ∧ t.block.fsm = .idle)
      ∨ (s.acceptsStart ∧ s.block.preconditionHolds ∧ t.block.fsm = .busy)
      ∨ (s.acceptsStart ∧ ¬ s.block.preconditionHolds ∧ t.block.fsm = .error)
      ∨ (s.engineRuns ∧ s.block.wa.toNat = 0 ∧ t.block.fsm = .done))
  ∧ (∀ s t : State, step s = .next t →
      (s.takesReset → t.block.fsm = .idle) ∧ (s.acceptsClear → t.block.fsm = .idle)
      ∧ (s.acceptsStart → s.block.preconditionHolds → t.block.fsm = .busy)
      ∧ (s.acceptsStart → ¬ s.block.preconditionHolds → t.block.fsm = .error)
      ∧ (s.engineRuns → s.block.wa.toNat = 0 → t.block.fsm = .done))
  ∧ (∀ (s : State) (off : Offset) (f : Fsm), decodeOffset s.cfg.nw off ≠ .status →
      ∃ d : Word, exec (.rd off) s = .next { s with returned := d :: s.returned }
        ∧ exec (.rd off) { s with block := { s.block with fsm := f } }
          = .next { s with block := { s.block with fsm := f }, returned := d :: s.returned })
  ∧ State.reset.block.fsm = .idle

/-- R20: only an accepted START, an accepted CLEAR and reset write ERRCODE; a START writes the code of its
cause; in a legal state it is 1, 2 or 3 in ERROR and 0 elsewhere. -/
def Obligations.ErrcodeWriters : Prop :=
  (∀ s t : State, step s = .next t →
      (t.block.errcode ≠ s.block.errcode → s.acceptsStart ∨ s.acceptsClear ∨ s.takesReset)
      ∧ (s.acceptsStart → t.block.errcode =
          if s.block.nVal % 2 = 0 then 1#4 else if s.block.aVal = 0 then 2#4
          else if s.block.aVal ≥ s.block.nVal then 3#4 else 0#4)
      ∧ (s.acceptsClear → t.block.errcode = 0#4) ∧ (s.takesReset → t.block.errcode = 0#4))
  ∧ (∀ (nw : Nat) (b : Block nw), b.Legal →
      (b.fsm = .error → b.errcode = 1#4 ∨ b.errcode = 2#4 ∨ b.errcode = 3#4)
      ∧ (b.fsm ≠ .error → b.errcode = 0#4))
  ∧ State.reset.block.errcode = 0#4

/-- R21, R91: CMDERR is set exactly by a rejected command, which does nothing else; only an accepted CLEAR
and reset clear it. -/
def Obligations.CmderrIsSticky : Prop :=
  (∀ s t : State, step s = .next t →
      (s.rejectsCommand → t = { s with
        inputs := s.inputs.tail, block := { s.block with cmderr := true } })
      ∧ (t.block.cmderr = true ↔
          s.rejectsCommand ∨ (s.block.cmderr = true ∧ ¬ s.acceptsClear ∧ ¬ s.takesReset)))
  ∧ State.reset.block.cmderr = false

/-- R24, R25, R27, I5: while the block is not BUSY, no step lets the working registers be observed: with
any other values of wa, wp and wt the step answers alike, and a computation that begins begins alike. -/
def Obligations.IdleWorkingRegistersUnobservable : Prop :=
  ∀ (s t : State) (x y : BitVec (32 * s.cfg.nw)) (z : Bool), s.block.fsm ≠ .busy → step s = .next t →
    ∃ (x' y' : BitVec (32 * t.cfg.nw)) (z' : Bool),
      step { s with block := { s.block with wa := x, wp := y, wt := z } }
        = .next { t with block := { t.block with wa := x', wp := y', wt := z' } }
      ∧ (t.block.fsm = .busy → x' = t.block.wa ∧ y' = t.block.wp ∧ z' = t.block.wt)

/-! ## Commands (41_commands.md) -/

/-- R70: the dispatch of every word written to CTRL, in every state. -/
def Obligations.CommandDispatch : Prop :=
  ∀ (s : State) (off : Offset) (d : Word), decodeOffset s.cfg.nw off = .ctrl →
    let c := d.toNat % 16
    exec (.wr off d) s = .next { s with
      block := (if c = 0 then s.block
        else if c ≠ 1 ∧ c ≠ 2 then { s.block with cmderr := true }
        else if s.block.fsm = .busy then { s.block with cmderr := true }
        else if c = 1 then doStart s.block
        else doClear s.block) }

/-- R71: NOP has no effect in any state, BUSY included, whatever the ignored bits. -/
def Obligations.NopChangesNothing : Prop :=
  (∀ (s : State) (rsv : BitVec 28), exec (.nop rsv) s = .next s)
  ∧ (∀ (s : State) (off : Offset) (d : Word), decodeOffset s.cfg.nw off = .ctrl → d.toNat % 16 = 0 →
      exec (.wr off d) s = .next s)

/-- R74: a reserved code sets CMDERR and changes nothing else, in every state; the rule's example. -/
def Obligations.ReservedCommandSetsCmderr : Prop :=
  (∀ (s : State) (off : Offset) (d : Word), decodeOffset s.cfg.nw off = .ctrl → 3 ≤ d.toNat % 16 →
      exec (.wr off d) s = .next { s with block := { s.block with cmderr := true } })
  ∧ (∃ t, exec (.wr 0x008#12 0x00000007#32) State.reset = .next t ∧ t.block.statusWord = 0x00000008#32)

/-- START (R72) completes in every state. While BUSY it is rejected. Otherwise RESULT becomes 0; operands
that satisfy the precondition are loaded and the block is BUSY; operands that break it put the block in
ERROR with the code of the first cause. CMDERR and the operand words are not written. -/
def Obligations.StartOutcome : Prop :=
  ∀ (s : State) (rsv : BitVec 28), ∃ b : Block s.cfg.nw,
    exec (.start rsv) s = .next { s with block := b }
    ∧ (s.block.fsm = .busy → b = { s.block with cmderr := true })
    ∧ (s.block.fsm ≠ .busy → b.result = 0#32 ∧ b.cmderr = s.block.cmderr
        ∧ b.aWord = s.block.aWord ∧ b.nWord = s.block.nWord
        ∧ (s.block.preconditionHolds → b.fsm = .busy ∧ b.errcode = 0#4
            ∧ b.wa.toNat = s.block.aVal ∧ b.wp.toNat = s.block.nVal ∧ b.wt = false)
        ∧ (¬ s.block.preconditionHolds → b.fsm = .error
            ∧ b.wa = s.block.wa ∧ b.wp = s.block.wp ∧ b.wt = s.block.wt
            ∧ b.errcode = if s.block.nVal % 2 = 0 then 1#4 else if s.block.aVal = 0 then 2#4 else 3#4))

/-- CLEAR (R73) completes in every state: rejected while BUSY; otherwise IDLE with ERRCODE, CMDERR and
RESULT 0 and everything else as it was. Any word with CMD 0x2 written to CTRL is CLEAR. It is the only
command that clears CMDERR. The rule's example: from ERROR with STATUS 0x0000001C to STATUS 0. -/
def Obligations.ClearOutcome : Prop :=
  (∀ (s : State) (rsv : BitVec 28), exec (.clear rsv) s = .next { s with block :=
      if s.block.fsm = .busy then { s.block with cmderr := true }
      else { s.block with fsm := .idle, errcode := 0#4, cmderr := false, result := 0#32 } })
  ∧ (∀ (s : State) (rsv : BitVec 28), s.block.Legal → s.block.fsm = .idle → s.block.cmderr = false →
      exec (.clear rsv) s = .next s)
  ∧ (∀ (s t : State) (off : Offset) (d : Word), exec (.wr off d) s = .next t →
      s.block.cmderr = true → t.block.cmderr = false → d.toNat % 16 = 2)
  ∧ (∀ (s : State) (off : Offset) (d : Word), decodeOffset s.cfg.nw off = .ctrl → d.toNat % 16 = 2 →
      exec (.wr off d) s = exec (.clear 0#28) s)
  ∧ (∀ (s : State) (rsv : BitVec 28), s.block.fsm = .error → s.block.statusWord = 0x0000001C#32 →
      ∃ t, exec (.clear rsv) s = .next t ∧ t.block.statusWord = 0x00000000#32)

/-- The frame of the commands (R70 to R73): NOP, START and CLEAR, in every state, leave the operand words,
the width, the pending inputs and the words already read; NOP and CLEAR leave wa, wp and wt, and so does a
START that begins no computation; START leaves CMDERR unless it is rejected. -/
def Obligations.CommandFrame : Prop :=
  ∀ (s t : State) (rsv : BitVec 28) (i : Instr), i = .nop rsv ∨ i = .start rsv ∨ i = .clear rsv →
    exec i s = .next t →
    t.cfg = s.cfg ∧ t.inputs = s.inputs ∧ t.returned = s.returned
    ∧ t.block.aWord.toList = s.block.aWord.toList ∧ t.block.nWord.toList = s.block.nWord.toList
    ∧ (i ≠ .start rsv ∨ s.block.fsm = .busy ∨ ¬ s.block.preconditionHolds →
        t.block.wa.toNat = s.block.wa.toNat ∧ t.block.wp.toNat = s.block.wp.toNat
        ∧ t.block.wt = s.block.wt)
    ∧ (i = .start rsv → s.block.fsm ≠ .busy → t.block.cmderr = s.block.cmderr)

/-! ## Faults (60_exceptions.md) -/

/-- R93: of the causes that hold at once the lowest code is recorded, exactly one is; the causes 2 and 3
never hold together with an odd N, and all three hold together only for N = 0 and A = 0. -/
def Obligations.LowestFaultCodeRecorded : Prop :=
  ∀ (s t : State) (rsv : BitVec 28), s.block.fsm ≠ .busy → exec (.start rsv) s = .next t →
    let cause := fun k : Nat =>
      (k = 1 ∧ s.block.nVal % 2 = 0) ∨ (k = 2 ∧ s.block.aVal = 0) ∨ (k = 3 ∧ s.block.aVal ≥ s.block.nVal)
    (∀ k : Nat, 1 ≤ k → k ≤ 3 →
        (t.block.fsm = .error ∧ t.block.errcode = BitVec.ofNat 4 k ↔ cause k ∧ ∀ j, j < k → ¬ cause j))
    ∧ (t.block.fsm = .error ↔ cause 1 ∨ cause 2 ∨ cause 3)
    ∧ (s.block.nVal % 2 = 1 → ¬ (cause 2 ∧ cause 3))
    ∧ (cause 1 ∧ cause 2 ∧ cause 3 ↔ s.block.nVal = 0 ∧ s.block.aVal = 0)

/-- R95: taking a precondition fault writes fsm and ERRCODE, with RESULT written by the START itself, and
nothing else. -/
def Obligations.FaultEntrySavesNothingElse : Prop :=
  ∀ (s : State) (rsv : BitVec 28), s.block.fsm ≠ .busy → ¬ s.block.preconditionHolds →
    ∃ code : BitVec 4, (code = 1#4 ∨ code = 2#4 ∨ code = 3#4) ∧
      exec (.start rsv) s = .next { s with block :=
        { s.block with fsm := .error, errcode := code, result := 0#32 } }

/-- The fault is precise (R96): after the START that raises it the very next STATUS read shows ERR and the
code, and no turn of the engine follows from it. -/
def Obligations.FaultIsPrecise : Prop :=
  ∀ (s t : State) (rsv : BitVec 28), s.block.fsm ≠ .busy → ¬ s.block.preconditionHolds →
    exec (.start rsv) s = .next t →
    (∃ d : Word, exec (.rd 0x00C#12) t = .next { t with returned := d :: t.returned }
      ∧ d.getLsbD 2 = true ∧ d.getLsbD 0 = false ∧ d.extractLsb' 4 4 =
        if s.block.nVal % 2 = 0 then 1#4 else if s.block.aVal = 0 then 2#4 else 3#4)
    ∧ (∀ m, microSteps m t.block = t.block)

/-- R97: ERROR is left by an accepted CLEAR, an accepted START and reset, as the rule says, and by nothing
else; CMDERR is left only by CLEAR or reset. -/
def Obligations.ErrorExit : Prop :=
  ∀ s t : State, s.block.fsm = .error → step s = .next t →
    (s.acceptsClear → t.block.fsm = .idle ∧ t.block.errcode = 0#4 ∧ t.block.result = 0#32)
    ∧ (s.acceptsStart → t.block.fsm = .busy ∨ (t.block.fsm = .error ∧ t.block.errcode =
        if s.block.nVal % 2 = 0 then 1#4 else if s.block.aVal = 0 then 2#4 else 3#4))
    ∧ (s.takesReset → t.block = Block.reset t.cfg.nw)
    ∧ (¬ s.acceptsClear → ¬ s.acceptsStart → ¬ s.takesReset →
        t.block.fsm = .error ∧ t.block.errcode = s.block.errcode)
    ∧ (s.block.cmderr = true → t.block.cmderr = false → s.acceptsClear ∨ s.takesReset)

/-- A block that is not BUSY is quiescent (R105): with a host that is idle (an exhausted list of inputs: log
entry 3) the machine does not move, a turn of the engine changes nothing in the block, and no number of
turns does. -/
def Obligations.QuiescentUnlessBusy : Prop :=
  ∀ s : State, s.block.fsm ≠ .busy →
    (s.inputs = [] → step s = .next s)
    ∧ (∀ rest, s.inputs = .microStep :: rest → step s = .next { s with inputs := rest })
    ∧ (∀ m, microSteps m s.block = s.block)

/-- No step faults (R89, R119), and a step is refused only for a trace record that spells no transaction
(R48). -/
def Obligations.StepsAlwaysComplete : Prop :=
  (∀ (s : State) (f : Fault), step s ≠ .fault f)
  ∧ (∀ (s : State) (r : Refusal), step s = .refused r →
      ∃ bits rest, s.inputs = .host (.record bits) :: rest ∧ decode (.record bits) = .error (.mustBeZero bits)
        ∧ r = .notATransaction bits)
  ∧ (∀ (s : State) (i : Instr), ∃ t, exec i s = .next t)

/-! ## The engine (42_jacobi_engine.md) -/

/-- R76: FINISH, with the corner cases the invariants of R80 give. -/
def Obligations.FinishMicroStep : Prop :=
  (∀ (s : State) (rest : List Event), s.inputs = .microStep :: rest → s.block.fsm = .busy →
      s.block.wa.toNat = 0 →
      step s = .next { s with inputs := rest, block := { s.block with
        result := if s.block.wp.toNat = 1 then (if s.block.wt = false then 0x00000001#32 else 0xFFFFFFFF#32)
          else 0x00000000#32
        fsm := .done } })
  ∧ (∀ (nw A0 N0 : Nat) (b : Block nw), b.ComputesFrom A0 N0 → b.wa.toNat = 0 →
      b.wp.toNat ≠ 0 ∧ (1 < b.wp.toNat → Nat.gcd A0 N0 = b.wp.toNat))

/-- R77: one HALVE, and k of them in a row when 2^k divides wa, each testing the same wp. -/
def Obligations.HalveMicroStep : Prop :=
  (∀ (s : State) (rest : List Event), s.inputs = .microStep :: rest → s.block.fsm = .busy →
      s.block.wa.toNat ≠ 0 → s.block.wa.toNat % 2 = 0 →
      step s = .next { s with inputs := rest, block := { s.block with
        wt := if s.block.wp.toNat % 8 = 3 ∨ s.block.wp.toNat % 8 = 5 then !s.block.wt else s.block.wt
        wa := BitVec.ofNat (32 * s.cfg.nw) (s.block.wa.toNat / 2) } }
      ∧ 1 ≤ s.block.wa.toNat / 2)
  ∧ (∀ (nw k : Nat) (b : Block nw), b.fsm = .busy → b.wa.toNat ≠ 0 → 2 ^ k ∣ b.wa.toNat →
      microSteps k b = { b with
        wt := if (b.wp.toNat % 8 = 3 ∨ b.wp.toNat % 8 = 5) ∧ k % 2 = 1 then !b.wt else b.wt
        wa := BitVec.ofNat (32 * nw) (b.wa.toNat / 2 ^ k) })

/-- R78: SWAP. -/
def Obligations.SwapMicroStep : Prop :=
  ∀ (s : State) (rest : List Event), s.inputs = .microStep :: rest → s.block.fsm = .busy →
    s.block.wa.toNat % 2 = 1 →
    step s = .next { s with inputs := rest, block := { s.block with
      wt := if s.block.wa.toNat % 4 = 3 ∧ s.block.wp.toNat % 4 = 3 then !s.block.wt else s.block.wt
      wa := BitVec.ofNat (32 * s.cfg.nw) (s.block.wp.toNat % s.block.wa.toNat)
      wp := s.block.wa } }
    ∧ (s.block.wa.toNat = 1 → s.block.wp.toNat % s.block.wa.toNat = 0)

/-- The frame of the engine (R75 to R78): a turn of the engine writes no operand word, neither ERRCODE nor
CMDERR, and returns nothing; RESULT and fsm change only at FINISH, and wp only at SWAP. -/
def Obligations.EngineFrame : Prop :=
  ∀ s t : State, s.inputs.head? = some .microStep ∨ s.inputs = [] → step s = .next t →
    t.cfg = s.cfg ∧ t.inputs = s.inputs.tail ∧ t.returned = s.returned
    ∧ t.block.aWord.toList = s.block.aWord.toList ∧ t.block.nWord.toList = s.block.nWord.toList
    ∧ t.block.errcode = s.block.errcode ∧ t.block.cmderr = s.block.cmderr
    ∧ (s.block.wa.toNat ≠ 0 → t.block.result = s.block.result ∧ t.block.fsm = s.block.fsm)
    ∧ (s.block.wa.toNat % 2 = 0 → t.block.wp.toNat = s.block.wp.toNat)
    ∧ (s.block.wa.toNat = 0 → t.block.wa.toNat = 0 ∧ t.block.wt = s.block.wt)

/-- R80: an accepted START establishes the four invariants for its snapshot, and every step after which the
block is still BUSY keeps them. -/
def Obligations.EngineInvariant : Prop :=
  (∀ s t : State, step s = .next t → s.acceptsStart → t.block.fsm = .busy →
      t.block.ComputesFrom s.block.aVal s.block.nVal)
  ∧ (∀ (s t : State) (A0 N0 : Nat), s.block.ComputesFrom A0 N0 → step s = .next t →
      t.block.fsm = .busy → t.block.ComputesFrom A0 N0)

/-- Every step keeps the block legal: RESULT an encoding and 0 outside DONE, ERRCODE 1, 2 or 3 exactly in
ERROR, a BUSY engine with an odd modulus above its argument (R17, R20, R65, R80). -/
def Obligations.EveryStepKeepsLegal : Prop :=
  ∀ s t : State, s.block.Legal → step s = .next t → t.block.Legal

/-- The block is legal right after reset. -/
def Obligations.ResetIsLegal : Prop := State.reset.block.Legal ∧ ∀ nw : Nat, (Block.reset nw).Legal

/-- R82: a computation performs at least 2 and at most 2·bitlen(N0) micro-steps, FINISH included. -/
def Obligations.StepBound : Prop :=
  ∀ (nw : Nat) (b : Block nw), b.fsm ≠ .busy → b.preconditionHolds →
    ∃ m, 2 ≤ m ∧ m ≤ 2 * bitlen b.nVal ∧ bitlen b.nVal ≤ 32 * nw
      ∧ (∀ j, j < m → (microSteps j (doStart b)).fsm = .busy)
      ∧ (microSteps m (doStart b)).fsm = .done

/-- R79: `jac` satisfies the rule's recursion, and it is the symbol the engine writes to RESULT; the rule's
example takes 3 micro-steps. (The equations of `go` and `jac` hold for all arguments; outside the rule's domain,
odd n and 0 < a < n, they are the model's own totalisation: log entry 19.) -/
def Obligations.EngineComputesJac : Prop :=
  (∀ a n : Nat, jac a n = go a n 1)
  ∧ (∀ (p : Nat) (s : Int), go 0 p s = if p = 1 then s else 0)
  ∧ (∀ (a p : Nat) (s : Int), a ≠ 0 → a % 2 = 0 →
      go a p s = go (a / 2) p (if p % 8 = 3 ∨ p % 8 = 5 then -s else s))
  ∧ (∀ (a p : Nat) (s : Int), a % 2 = 1 →
      go a p s = go (p % a) a (if a % 4 = 3 ∧ p % 4 = 3 then -s else s))
  ∧ (∀ (nw : Nat) (b : Block nw), b.fsm ≠ .busy → b.preconditionHolds →
      ∃ m, (∀ j, j < m → (microSteps j (doStart b)).fsm = .busy)
        ∧ (microSteps m (doStart b)).fsm = .done
        ∧ (microSteps m (doStart b)).result = enc (jac b.aVal b.nVal))
  ∧ (∀ (nw : Nat) (b : Block nw), b.fsm ≠ .busy → b.aVal = 5 → b.nVal = 21 →
      (microSteps 2 (doStart b)).fsm = .busy ∧ (microSteps 3 (doStart b)).fsm = .done
      ∧ (microSteps 3 (doStart b)).result = 0x00000001#32)

/-- R84: the symbol is -1, 0 or +1, and 0 exactly when gcd(a, n) > 1. -/
def Obligations.JacZeroIffGcd : Prop :=
  ∀ a n : Nat, n % 2 = 1 → 0 < a → a < n →
    (jac a n = -1 ∨ jac a n = 0 ∨ jac a n = 1) ∧ (jac a n = 0 ↔ 1 < Nat.gcd a n)

/-- R83: the engine's function is the general Jacobi symbol for every odd n, and the Legendre symbol when
n is prime. -/
def Obligations.JacIsJacobiSymbol : Prop :=
  (∀ a n : Nat, n % 2 = 1 → 3 ≤ n → 0 < a → a < n → jac a n = jacobiSym (a : Int) n)
  ∧ (∀ (a p : Nat) [Fact p.Prime], p % 2 = 1 → 0 < a → a < p → jac a p = legendreSym p (a : Int))

/-- R85: multiplicativity where the product does not reduce to 0; where it does, the block answers the
left-hand call with fault 2. -/
def Obligations.JacMultiplicative : Prop :=
  (∀ a b n : Nat, n % 2 = 1 → 3 ≤ n → 0 < a → a < n → 0 < b → b < n → (a * b) % n ≠ 0 →
      jac ((a * b) % n) n = jac a n * jac b n)
  ∧ (∀ (nw a b n : Nat) (blk : Block nw), n % 2 = 1 → (a * b) % n = 0 → blk.fsm ≠ .busy →
      blk.aVal = (a * b) % n → blk.nVal = n →
      (doStart blk).fsm = .error ∧ (doStart blk).errcode = 2#4)

/-- R86: in a BUSY state with snapshot (A0, N0), J(A0, N0) = sign · J'(wa, wp): an accepted START
establishes it and every step that stays BUSY keeps it. (J'(0, 1) = 1 and J'(0, m) = 0 for m > 1 are values
of the Jacobi symbol itself.) -/
def Obligations.ValueInvariant : Prop :=
  (∀ s t : State, step s = .next t → s.acceptsStart → t.block.fsm = .busy →
      jacobiSym (s.block.aVal : Int) s.block.nVal
        = signOf t.block.wt * jacobiSym (t.block.wa.toNat : Int) t.block.wp.toNat)
  ∧ (∀ (s t : State) (A0 N0 : Nat), s.block.ComputesFrom A0 N0 →
      jacobiSym (A0 : Int) N0 = signOf s.block.wt * jacobiSym (s.block.wa.toNat : Int) s.block.wp.toNat →
      step s = .next t → t.block.fsm = .busy →
      jacobiSym (A0 : Int) N0 = signOf t.block.wt * jacobiSym (t.block.wa.toNat : Int) t.block.wp.toNat)
  ∧ jacobiSym 0 1 = 1 ∧ (∀ m : Nat, 1 < m → jacobiSym 0 m = 0)

/-- The client contracts of R87 and R88 on a block that does not reduce its argument: for an odd prime p and
any y, presenting (y mod p, p) raises fault 2 exactly when p divides y, and otherwise the symbol is the
Legendre symbol of y, never 0; and (a, p·q) with 2 ≤ a < p·q raises no fault. -/
def Obligations.ClientContracts : Prop :=
  (∀ (nw y p : Nat) [Fact p.Prime] (b : Block nw), p % 2 = 1 → b.fsm ≠ .busy → b.aVal = y % p → b.nVal = p →
      (p ∣ y → (doStart b).fsm = .error ∧ (doStart b).errcode = 2#4)
      ∧ (¬ p ∣ y → (doStart b).fsm = .busy ∧ jac (y % p) p = legendreSym p (y : Int) ∧ jac (y % p) p ≠ 0))
  ∧ (∀ (nw a p q : Nat) (b : Block nw), p % 2 = 1 → q % 2 = 1 → b.fsm ≠ .busy → 2 ≤ a → a < p * q →
      b.aVal = a → b.nVal = p * q → (doStart b).fsm = .busy)

/-! ## Whole runs -/

/-- R69, R41: however host transactions and turns of the engine interleave, a computation with snapshot
(A0, N0) that no reset cuts short reaches DONE with RESULT = enc(jac(A0, N0)) by the time the engine has had
2·bitlen(N0) turns. -/
def Obligations.ComputationEndsUnderEverySchedule : Prop :=
  ∀ (s t : State) (evs rest : List Event), step s = .next t → s.acceptsStart → t.block.fsm = .busy →
    t.inputs = evs ++ rest → (∀ ev ∈ evs, ev.spells = true ∧ ev ≠ .reset) →
    2 * bitlen s.block.nVal ≤ engineTurns evs →
    ∃ m u, m ≤ evs.length ∧ run m t = .next u ∧ u.block.fsm = .done
      ∧ u.block.result = enc (jac s.block.aVal s.block.nVal)

/-- R113: while BUSY, other operand words change nothing of the computation: the step answers alike in
everything but the operand words themselves and, if the step reads an operand word, the word returned. -/
def Obligations.OperandWritesDoNotReachComputation : Prop :=
  ∀ (s t : State) (x y : Vector Word s.cfg.nw), s.block.fsm = .busy → step s = .next t →
    ∃ (x' y' : Vector Word t.cfg.nw) (r' : List Word),
      step { s with block := { s.block with aWord := x, nWord := y } }
        = .next { t with block := { t.block with aWord := x', nWord := y' }, returned := r' }
      ∧ (r' = t.returned ∨ ∃ e off rest i, s.inputs = .host e :: rest ∧ decode e = .ok (.rd off)
          ∧ (decodeOffset s.cfg.nw off = .aWord i ∨ decodeOffset s.cfg.nw off = .nWord i))

/-- R59: `WROP X, v` is NW writes in ascending word order, its short form the first k of them. In any state
and for any legal operand value it leaves the operand with the value v and nothing but its words changed; the
short form does if the words above hold the upper words of v already. -/
def Obligations.WropPresentsOperand : Prop :=
  (∀ nw v k : Nat,
      expand nw (.wropShort .a v k) = (List.range k).map (fun i =>
        .wr (BitVec.ofNat 12 (0x100 + 4 * i)) (BitVec.ofNat 32 ((v >>> (32 * i)) % 2 ^ 32)))
      ∧ expand nw (.wropShort .n v k) = (List.range k).map (fun i =>
        .wr (BitVec.ofNat 12 (0x200 + 4 * i)) (BitVec.ofNat 32 ((v >>> (32 * i)) % 2 ^ 32)))
      ∧ expand nw (.wrop .a v) = expand nw (.wropShort .a v nw)
      ∧ expand nw (.wrop .n v) = expand nw (.wropShort .n v nw))
  ∧ (∀ (s : State) (rest : List Event) (v : Nat), v < 2 ^ s.cfg.width →
      (s.inputs = scriptEvents s.cfg.nw [.wrop .a v] ++ rest → ∃ x, operandValue x = v ∧
        run s.cfg.nw s = .next { s with inputs := rest, block := { s.block with aWord := x } })
      ∧ (s.inputs = scriptEvents s.cfg.nw [.wrop .n v] ++ rest → ∃ x, operandValue x = v ∧
        run s.cfg.nw s = .next { s with inputs := rest, block := { s.block with nWord := x } }))
  ∧ (∀ (s : State) (rest : List Event) (v k : Nat), v < 2 ^ s.cfg.width → k ≤ s.cfg.nw →
      (s.inputs = scriptEvents s.cfg.nw [.wropShort .a v k] ++ rest →
        (∀ i : Fin s.cfg.nw, k ≤ i.val → s.block.aWord[i] = wordOf v i.val) → ∃ x, operandValue x = v ∧
        run k s = .next { s with inputs := rest, block := { s.block with aWord := x } })
      ∧ (s.inputs = scriptEvents s.cfg.nw [.wropShort .n v k] ++ rest →
        (∀ i : Fin s.cfg.nw, k ≤ i.val → s.block.nWord[i] = wordOf v i.val) → ∃ x, operandValue x = v ∧
        run k s = .next { s with inputs := rest, block := { s.block with nWord := x } }))

/-- R62 (but for its count of the transactions beside the POLL reads, which the expansion that the rule
writes out has as 2·NW + 2: log entry 8): the host's `JACOBI a, n` in a block that is not BUSY, with the engine taking its turns anywhere
among the transactions: if the last STATUS read shows BUSY = 0, then DONE means the word read from RESULT is
enc(jac(a, n)) with the precondition satisfied, and ERR means it is 0 with the fault's code in STATUS; and
one of the two is the case. -/
def Obligations.JacobiScriptReturnsSymbol : Prop :=
  ∀ (s : State) (evs : List Event) (a n reads : Nat), s.inputs = evs → .reset ∉ evs →
    hostInputs evs = (expand s.cfg.nw (.jacobi a n reads)).map encode →
    (Stmt.jacobi a n reads).wellFormed s.cfg = true → s.block.fsm ≠ .busy →
    (expand s.cfg.nw (.jacobi a n reads)).length = 2 * s.cfg.nw + 2 + reads ∧
    ∃ (t : State) (r status : Word) (older : List Word), run evs.length s = .next t
      ∧ t.inputs = [] ∧ t.returned = r :: status :: older
      ∧ (status.getLsbD 0 = false →
          (status.getLsbD 1 = true ∧ n % 2 = 1 ∧ 0 < a ∧ a < n ∧ r = enc (jac a n))
          ∨ (status.getLsbD 1 = false ∧ status.getLsbD 2 = true ∧ r = 0x00000000#32
              ∧ status.extractLsb' 4 4 = if n % 2 = 0 then 1#4 else if a = 0 then 2#4 else 3#4))

/-- R42: once fsm is DONE or ERROR, RESULT and ERRCODE keep their values until an accepted command or
reset. -/
def Obligations.ResultStableUntilCommand : Prop :=
  ∀ s t : State, s.block.fsm = .done ∨ s.block.fsm = .error → step s = .next t →
    ¬ s.acceptsStart → ¬ s.acceptsClear → ¬ s.takesReset →
    t.block.fsm = s.block.fsm ∧ t.block.result = s.block.result ∧ t.block.errcode = s.block.errcode

/-- The cycle bound of R118, over whatever numbers of cycles within STEP_CYCLES the micro-steps take: a
computation takes at most 2·bitlen(N0)·STEP_CYCLES cycles. -/
def Obligations.CycleBound : Prop :=
  ∀ (nw : Nat) (b : Block nw) (stepCycles : Nat) (cycles : Nat → Nat), b.fsm ≠ .busy → b.preconditionHolds →
    (∀ j, 1 ≤ cycles j ∧ cycles j ≤ stepCycles) →
    ∃ m, (∀ j, j < m → (microSteps j (doStart b)).fsm = .busy) ∧ (microSteps m (doStart b)).fsm = .done
      ∧ (∑ j ∈ Finset.range m, cycles j) ≤ 2 * bitlen b.nVal * stepCycles
      ∧ 2 * bitlen b.nVal * stepCycles ≤ 2 * (32 * nw) * stepCycles

/-! ## Reset (70_reset_and_hazards.md) -/

/-- R107: the reset value of every state element and of every view and constant, and that the reset machine
is a block with these values. (For wa, wp and wt these are the spec's reference values, which it lets a model
choose: I5, log entry 1.) -/
def Obligations.ResetValues : Prop :=
  (∀ c : Config, let b := Block.reset c.nw
    (∀ i : Fin c.nw, b.aWord[i] = 0x00000000#32 ∧ b.nWord[i] = 0x00000000#32)
    ∧ b.result = 0x00000000#32 ∧ b.fsm = .idle ∧ b.errcode = 0#4 ∧ b.cmderr = false
    ∧ b.wa.toNat = 0 ∧ b.wp.toNat = 0 ∧ b.wt = false
    ∧ readValue b .status = 0x00000000#32 ∧ readValue b .id = 0x4A430001#32
    ∧ readValue b .param = BitVec.ofNat 32 c.nw)
  ∧ State.reset.block = Block.reset State.reset.cfg.nw

/-- The reset event (R106) puts every element into its reset value in one step, whatever the state; the
block then accepts the next transaction. -/
def Obligations.ResetEvent : Prop :=
  ∀ (s : State) (rest : List Event), s.inputs = .reset :: rest →
    step s = .next { s with inputs := rest, block := Block.reset s.cfg.nw }
    ∧ (Block.reset s.cfg.nw).fsm = .idle

/-- R108: a reset during BUSY abandons the computation, with no result, no DONE and no fault; and what
follows does not depend on whether there was one. -/
def Obligations.ResetAbandonsComputation : Prop :=
  (∀ s t : State, s.takesReset → s.block.fsm = .busy → step s = .next t →
      t.block.result = 0x00000000#32 ∧ t.block.fsm ≠ .done ∧ t.block.fsm ≠ .error ∧ t.block.fsm ≠ .busy
      ∧ t.block.errcode = 0#4 ∧ t.block.cmderr = false)
  ∧ (∀ s s' : State, s.takesReset → s'.cfg = s.cfg → s'.inputs = s.inputs → s'.returned = s.returned →
      step s' = step s)
end

