-- ==== Sys2Proof/Laws/State.lean ====
section
/-! SUPPORT. One lemma per field per update of the state, each true by rfl, so that no later proof unfolds an
update: the block's operations (R76 to R78, R70, R73, R95, R107) and the turns of the agents. -/

namespace Sys2Proof.Machine

variable {nw : Nat} (b : Block nw) (code : BitVec 4) (s : State)

/-! A rejected command writes CMDERR only (R70). -/

@[simp] theorem reject_aWord : (reject b).aWord = b.aWord := rfl
@[simp] theorem reject_nWord : (reject b).nWord = b.nWord := rfl
@[simp] theorem reject_result : (reject b).result = b.result := rfl
@[simp] theorem reject_fsm : (reject b).fsm = b.fsm := rfl
@[simp] theorem reject_errcode : (reject b).errcode = b.errcode := rfl
@[simp] theorem reject_cmderr : (reject b).cmderr = true := rfl
@[simp] theorem reject_wa : (reject b).wa = b.wa := rfl
@[simp] theorem reject_wp : (reject b).wp = b.wp := rfl
@[simp] theorem reject_wt : (reject b).wt = b.wt := rfl

/-! A precondition fault writes fsm and ERRCODE only (R95). -/

@[simp] theorem raisePreconditionFault_aWord : (raisePreconditionFault code b).aWord = b.aWord := rfl
@[simp] theorem raisePreconditionFault_nWord : (raisePreconditionFault code b).nWord = b.nWord := rfl
@[simp] theorem raisePreconditionFault_result : (raisePreconditionFault code b).result = b.result := rfl
@[simp] theorem raisePreconditionFault_fsm : (raisePreconditionFault code b).fsm = .error := rfl
@[simp] theorem raisePreconditionFault_errcode : (raisePreconditionFault code b).errcode = code := rfl
@[simp] theorem raisePreconditionFault_cmderr : (raisePreconditionFault code b).cmderr = b.cmderr := rfl
@[simp] theorem raisePreconditionFault_wa : (raisePreconditionFault code b).wa = b.wa := rfl
@[simp] theorem raisePreconditionFault_wp : (raisePreconditionFault code b).wp = b.wp := rfl
@[simp] theorem raisePreconditionFault_wt : (raisePreconditionFault code b).wt = b.wt := rfl

/-! An accepted CLEAR writes fsm, ERRCODE, CMDERR and RESULT (R73). -/

@[simp] theorem doClear_aWord : (doClear b).aWord = b.aWord := rfl
@[simp] theorem doClear_nWord : (doClear b).nWord = b.nWord := rfl
@[simp] theorem doClear_result : (doClear b).result = 0#32 := rfl
@[simp] theorem doClear_fsm : (doClear b).fsm = .idle := rfl
@[simp] theorem doClear_errcode : (doClear b).errcode = 0#4 := rfl
@[simp] theorem doClear_cmderr : (doClear b).cmderr = false := rfl
@[simp] theorem doClear_wa : (doClear b).wa = b.wa := rfl
@[simp] theorem doClear_wp : (doClear b).wp = b.wp := rfl
@[simp] theorem doClear_wt : (doClear b).wt = b.wt := rfl

/-! FINISH writes RESULT and fsm (R76). -/

@[simp] theorem finish_aWord : (finish b).aWord = b.aWord := rfl
@[simp] theorem finish_nWord : (finish b).nWord = b.nWord := rfl
@[simp] theorem finish_result : (finish b).result = (if b.wp.toNat = 1 then enc (signOf b.wt) else enc 0) := rfl
@[simp] theorem finish_fsm : (finish b).fsm = .done := rfl
@[simp] theorem finish_errcode : (finish b).errcode = b.errcode := rfl
@[simp] theorem finish_cmderr : (finish b).cmderr = b.cmderr := rfl
@[simp] theorem finish_wa : (finish b).wa = b.wa := rfl
@[simp] theorem finish_wp : (finish b).wp = b.wp := rfl
@[simp] theorem finish_wt : (finish b).wt = b.wt := rfl

/-! HALVE writes wt and wa (R77). -/

@[simp] theorem halve_aWord : (halve b).aWord = b.aWord := rfl
@[simp] theorem halve_nWord : (halve b).nWord = b.nWord := rfl
@[simp] theorem halve_result : (halve b).result = b.result := rfl
@[simp] theorem halve_fsm : (halve b).fsm = b.fsm := rfl
@[simp] theorem halve_errcode : (halve b).errcode = b.errcode := rfl
@[simp] theorem halve_cmderr : (halve b).cmderr = b.cmderr := rfl
@[simp] theorem halve_wa : (halve b).wa = b.wa >>> 1 := rfl
@[simp] theorem halve_wp : (halve b).wp = b.wp := rfl
@[simp] theorem halve_wt : (halve b).wt = (b.wt ^^ halveFlips b.wp.toNat) := rfl

/-! SWAP writes wt, wa and wp (R78). -/

@[simp] theorem swap_aWord : (swap b).aWord = b.aWord := rfl
@[simp] theorem swap_nWord : (swap b).nWord = b.nWord := rfl
@[simp] theorem swap_result : (swap b).result = b.result := rfl
@[simp] theorem swap_fsm : (swap b).fsm = b.fsm := rfl
@[simp] theorem swap_errcode : (swap b).errcode = b.errcode := rfl
@[simp] theorem swap_cmderr : (swap b).cmderr = b.cmderr := rfl
@[simp] theorem swap_wa : (swap b).wa = b.wp % b.wa := rfl
@[simp] theorem swap_wp : (swap b).wp = b.wa := rfl
@[simp] theorem swap_wt : (swap b).wt = (b.wt ^^ swapFlips b.wa.toNat b.wp.toNat) := rfl

/-! The reset values (R107). -/

@[simp] theorem reset_aWord : (Block.reset nw).aWord = Vector.replicate nw 0#32 := rfl
@[simp] theorem reset_nWord : (Block.reset nw).nWord = Vector.replicate nw 0#32 := rfl
@[simp] theorem reset_result : (Block.reset nw).result = 0#32 := rfl
@[simp] theorem reset_fsm : (Block.reset nw).fsm = .idle := rfl
@[simp] theorem reset_errcode : (Block.reset nw).errcode = 0#4 := rfl
@[simp] theorem reset_cmderr : (Block.reset nw).cmderr = false := rfl
@[simp] theorem reset_wt : (Block.reset nw).wt = false := rfl
@[simp] theorem reset_wa_toNat : (Block.reset nw).wa.toNat = 0 := rfl
@[simp] theorem reset_wp_toNat : (Block.reset nw).wp.toNat = 0 := rfl

/-! The turns of the agents write the block only. -/

@[simp] theorem turnOfEngine_cfg : (turnOfEngine s).cfg = s.cfg := rfl
@[simp] theorem turnOfEngine_inputs : (turnOfEngine s).inputs = s.inputs := rfl
@[simp] theorem turnOfEngine_returned : (turnOfEngine s).returned = s.returned := rfl
@[simp] theorem turnOfEngine_block : (turnOfEngine s).block = engineTurn s.block := rfl
@[simp] theorem turnOfReset_cfg : (turnOfReset s).cfg = s.cfg := rfl
@[simp] theorem turnOfReset_inputs : (turnOfReset s).inputs = s.inputs := rfl
@[simp] theorem turnOfReset_returned : (turnOfReset s).returned = s.returned := rfl
@[simp] theorem turnOfReset_block : (turnOfReset s).block = Block.reset s.cfg.nw := rfl

end Sys2Proof.Machine
end

