-- ==== Sys2Proof/Laws/Ops.lean ====
section
/-! SUPPORT. One lemma per shared operation that says everything it can do, and the small facts about
offsets and command codes that callers need. -/

namespace Sys2Proof.Machine

variable {nw : Nat}

/-! Offsets and command codes as numbers. -/

/-- The ignored bits of an offset (R32): eff is the offset rounded down to a multiple of 4. -/
theorem effOf_toNat (off : Offset) : (effOf off).toNat = off.toNat / 4 * 4 := by
  have h : effOf off = (off >>> 2) <<< 2 := by
    unfold effOf
    apply BitVec.eq_of_getLsbD_eq
    intro i hi
    interval_cases i <;> simp
  have hlt := off.isLt
  rw [h, BitVec.toNat_shiftLeft, BitVec.toNat_ushiftRight, Nat.shiftLeft_eq, Nat.shiftRight_eq_div_pow]
  omega

/-- Rounding twice is rounding once (R34). -/
theorem effOf_effOf (off : Offset) : effOf (effOf off) = effOf off := by
  apply BitVec.eq_of_toNat_eq
  rw [effOf_toNat, effOf_toNat]
  omega

/-- Offsets that agree in bits [11:2] select the same register (R34). -/
theorem decodeOffset_effOf (off : Offset) : decodeOffset nw (effOf off) = decodeOffset nw off := by
  simp only [decodeOffset, effOf_effOf]

/-- An offset reaches CTRL exactly when eff is 0x008 (R31). -/
theorem decodeOffset_eq_ctrl_iff (off : Offset) :
    decodeOffset nw off = .ctrl ↔ (effOf off).toNat = 0x008 := by
  unfold decodeOffset
  dsimp only
  split_ifs <;> simp_all

/-- CMD is the command word modulo 16 (R49). -/
theorem cmdOf_toNat (w : Word) : (cmdOf w).toNat = w.toNat % 16 := by
  simp [cmdOf, BitVec.extractLsb'_toNat]

/-- Comparing CMD with a code is comparing numbers (R50). -/
theorem cmdOf_eq_iff (w : Word) (c : BitVec 4) : cmdOf w = c ↔ w.toNat % 16 = c.toNat := by
  rw [← cmdOf_toNat, BitVec.toNat_inj]

/-- The offset of A_WORD[i] selects it (R31). -/
theorem decodeOffset_aWord (c : Config) (i : Fin c.nw) :
    decodeOffset c.nw (targetOffset (.aWord i.val)) = .aWord i := by
  have hi := i.isLt
  have hc := c.nw_le
  have he : (effOf (targetOffset (.aWord i.val))).toNat = 0x100 + 4 * i.val := by
    rw [effOf_toNat]
    simp only [targetOffset, BitVec.toNat_ofNat]
    omega
  unfold decodeOffset
  simp only [he]
  split_ifs <;> first | omega | (congr 1; apply Fin.ext; simp)

/-- The offset of N_WORD[i] selects it (R31). -/
theorem decodeOffset_nWord (c : Config) (i : Fin c.nw) :
    decodeOffset c.nw (targetOffset (.nWord i.val)) = .nWord i := by
  have hi := i.isLt
  have hc := c.nw_le
  have he : (effOf (targetOffset (.nWord i.val))).toNat = 0x200 + 4 * i.val := by
    rw [effOf_toNat]
    simp only [targetOffset, BitVec.toNat_ofNat]
    omega
  unfold decodeOffset
  simp only [he]
  split_ifs <;> first | omega | (congr 1; apply Fin.ext; simp)

/-! The flips of the sign. -/

theorem halveFlips_iff (p : Nat) : halveFlips p = true ↔ p % 8 = 3 ∨ p % 8 = 5 := by simp [halveFlips]

theorem swapFlips_iff (a p : Nat) : swapFlips a p = true ↔ a % 4 = 3 ∧ p % 4 = 3 := by simp [swapFlips]

/-! The commands. -/

/-- What a START that is not rejected can do (R72, R93): one of three faults, or a computation begins. -/
theorem doStart_cases (b : Block nw) :
    (b.nVal % 2 = 0 ∧ doStart b = raisePreconditionFault 1#4 { b with result := 0#32 })
    ∨ (b.nVal % 2 = 1 ∧ b.aVal = 0 ∧ doStart b = raisePreconditionFault 2#4 { b with result := 0#32 })
    ∨ (b.nVal % 2 = 1 ∧ 0 < b.aVal ∧ b.nVal ≤ b.aVal
        ∧ doStart b = raisePreconditionFault 3#4 { b with result := 0#32 })
    ∨ (b.preconditionHolds ∧ doStart b = { b with
        result := 0#32, wa := operandBits b.aWord, wp := operandBits b.nWord, wt := false,
        errcode := 0#4, fsm := .busy }) := by
  unfold doStart Block.preconditionHolds
  dsimp only
  split_ifs with h1 h2 h3
  · exact .inl ⟨h1, rfl⟩
  · exact .inr (.inl ⟨by omega, h2, rfl⟩)
  · exact .inr (.inr (.inl ⟨by omega, by omega, h3, rfl⟩))
  · exact .inr (.inr (.inr ⟨⟨by omega, by omega, by omega⟩, rfl⟩))

/-- A START whose operands satisfy the precondition begins the computation (R72). -/
theorem doStart_of_precondition {b : Block nw} (h : b.preconditionHolds) :
    doStart b = { b with
      result := 0#32, wa := operandBits b.aWord, wp := operandBits b.nWord, wt := false,
      errcode := 0#4, fsm := .busy } := by
  obtain ⟨h1, h2, h3⟩ := h
  obtain ⟨h, -⟩ | ⟨-, h, -⟩ | ⟨-, -, h, -⟩ | ⟨-, h⟩ := doStart_cases b
  · omega
  · omega
  · omega
  · exact h

/-- The value of an operand as a register (R16, R24). -/
@[simp] theorem operandBits_toNat (ws : Vector Word nw) : (operandBits ws).toNat = operandValue ws :=
  rfl

/-- What a word written to CTRL can do (R70). -/
theorem command_cases (d : Word) (b : Block nw) :
    (d.toNat % 16 = 0 ∧ command d b = b)
    ∨ (3 ≤ d.toNat % 16 ∧ command d b = reject b)
    ∨ (d.toNat % 16 = 1 ∧ b.fsm = .busy ∧ command d b = reject b)
    ∨ (d.toNat % 16 = 2 ∧ b.fsm = .busy ∧ command d b = reject b)
    ∨ (d.toNat % 16 = 1 ∧ b.fsm ≠ .busy ∧ command d b = doStart b)
    ∨ (d.toNat % 16 = 2 ∧ b.fsm ≠ .busy ∧ command d b = doClear b) := by
  unfold command startCommand clearCommand
  simp only [ne_eq, cmdOf_eq_iff, BitVec.toNat_ofNat]
  split_ifs <;> first | omega | simp_all <;> omega

/-- What a write to a register can do (R66). -/
theorem writeEffect_cases (b : Block nw) (r : Reg nw) (data : Word) :
    (r = .ctrl ∧ writeEffect b r data = command data b)
    ∨ (∃ i, r = .aWord i ∧ writeEffect b r data = { b with aWord := b.aWord.set i.val data i.isLt })
    ∨ (∃ i, r = .nWord i ∧ writeEffect b r data = { b with nWord := b.nWord.set i.val data i.isLt })
    ∨ (r ≠ .ctrl ∧ (∀ i, r ≠ .aWord i) ∧ (∀ i, r ≠ .nWord i) ∧ writeEffect b r data = b) := by
  cases r <;> simp [writeEffect]

/-! The engine. -/

/-- What a turn of the engine can do (R75): nothing unless BUSY, else one of the three micro-steps. -/
theorem engineTurn_cases (b : Block nw) :
    (b.fsm ≠ .busy ∧ engineTurn b = b)
    ∨ (b.fsm = .busy ∧ b.wa.toNat = 0 ∧ engineTurn b = finish b)
    ∨ (b.fsm = .busy ∧ b.wa.toNat ≠ 0 ∧ b.wa.toNat % 2 = 0 ∧ engineTurn b = halve b)
    ∨ (b.fsm = .busy ∧ b.wa.toNat % 2 = 1 ∧ engineTurn b = swap b) := by
  unfold engineTurn engineStep
  split_ifs with h1 h2 h3
  · exact .inr (.inl ⟨h1, h2, rfl⟩)
  · exact .inr (.inr (.inl ⟨h1, h2, h3, rfl⟩))
  · exact .inr (.inr (.inr ⟨h1, by omega, rfl⟩))
  · exact .inl ⟨h1, rfl⟩

end Sys2Proof.Machine
end

