-- ==== Sys2Proof/Laws/Decode.lean ====
section
/-! SUPPORT. The fields of the encodings that the encoder writes (R48, R49), and what decoding can answer. -/

namespace Sys2Proof

/-! The bits of a trace record (R48) and of a command word (R49). -/

theorem rdRecord_getLsbD (off : Offset) (i : Nat) : (rdRecord off).getLsbD i =
    if 32 ≤ i ∧ i < 44 then off.getLsbD (i - 32) else false := by
  have h : ((0#1 ++ (0#19 ++ (off ++ 0#32)) : BitVec (1 + (19 + (12 + 32))))).getLsbD i =
      if 32 ≤ i ∧ i < 44 then off.getLsbD (i - 32) else false := by
    simp only [BitVec.getLsbD_append, BitVec.getLsbD_zero]
    split_ifs <;> first | rfl | omega
  exact h

theorem wrRecord_getLsbD (off : Offset) (data : Word) (i : Nat) : (wrRecord off data).getLsbD i =
    if i < 32 then data.getLsbD i else if i < 44 then off.getLsbD (i - 32) else decide (i = 63) := by
  have h : ((1#1 ++ (0#19 ++ (off ++ data)) : BitVec (1 + (19 + (12 + 32))))).getLsbD i =
      if i < 32 then data.getLsbD i else if i < 44 then off.getLsbD (i - 32) else decide (i = 63) := by
    simp only [BitVec.getLsbD_append, BitVec.getLsbD_zero, BitVec.getLsbD_one]
    split_ifs <;> simp <;> omega
  exact h

theorem commandWord_getLsbD (rsv : BitVec 28) (cmd : BitVec 4) (i : Nat) : (commandWord rsv cmd).getLsbD i =
    if i < 4 then cmd.getLsbD i else rsv.getLsbD (i - 4) :=
  BitVec.getLsbD_append (x := rsv) (y := cmd)

/-! The fields of a trace record (R48). -/

theorem rdRecord_dir (off : Offset) : (rdRecord off).getLsbD 63 = false := by
  rw [rdRecord_getLsbD]
  rfl

theorem rdRecord_zero (off : Offset) : (rdRecord off).extractLsb' 44 19 = 0#19 := by
  apply BitVec.eq_of_getLsbD_eq
  intro i hi
  simp [rdRecord_getLsbD]

theorem rdRecord_off (off : Offset) : (rdRecord off).extractLsb' 32 12 = off := by
  apply BitVec.eq_of_getLsbD_eq
  intro i hi
  simp [rdRecord_getLsbD, hi, show 32 + i < 44 by omega]

theorem rdRecord_data (off : Offset) : (rdRecord off).extractLsb' 0 32 = 0#32 := by
  apply BitVec.eq_of_getLsbD_eq
  intro i hi
  simp [rdRecord_getLsbD, show ¬ 32 ≤ i by omega]

theorem wrRecord_dir (off : Offset) (data : Word) : (wrRecord off data).getLsbD 63 = true := by
  rw [wrRecord_getLsbD]
  rfl

theorem wrRecord_zero (off : Offset) (data : Word) : (wrRecord off data).extractLsb' 44 19 = 0#19 := by
  apply BitVec.eq_of_getLsbD_eq
  intro i hi
  simp [wrRecord_getLsbD, show ¬ 44 + i < 32 by omega, show ¬ 44 + i = 63 by omega]

theorem wrRecord_off (off : Offset) (data : Word) : (wrRecord off data).extractLsb' 32 12 = off := by
  apply BitVec.eq_of_getLsbD_eq
  intro i hi
  simp [wrRecord_getLsbD, hi, show 32 + i < 44 by omega]

theorem wrRecord_data (off : Offset) (data : Word) : (wrRecord off data).extractLsb' 0 32 = data := by
  apply BitVec.eq_of_getLsbD_eq
  intro i hi
  simp [wrRecord_getLsbD, hi]

/-! The fields of a command word (R49). -/

theorem commandWord_cmd (rsv : BitVec 28) (cmd : BitVec 4) : cmdOf (commandWord rsv cmd) = cmd := by
  apply BitVec.eq_of_getLsbD_eq
  intro i hi
  simp [cmdOf, commandWord_getLsbD, hi]

theorem commandWord_rsv (rsv : BitVec 28) (cmd : BitVec 4) :
    (commandWord rsv cmd).extractLsb' 4 28 = rsv := by
  apply BitVec.eq_of_getLsbD_eq
  intro i hi
  simp [commandWord_getLsbD, hi]

/-! What decoding can answer. -/

/-- A trace record spells RD, WR or nothing (R47, R48). -/
theorem decodeRecord_cases (r : BitVec 64) :
    (∃ off, decodeRecord r = .ok (.rd off)) ∨ (∃ off data, decodeRecord r = .ok (.wr off data))
    ∨ decodeRecord r = .error (.mustBeZero r) := by
  unfold decodeRecord
  split_ifs
  · exact .inr (.inl ⟨_, _, rfl⟩)
  · exact .inl ⟨_, rfl⟩
  · exact .inr (.inr rfl)
  · exact .inr (.inr rfl)

/-- A command word spells the command of its CMD, or is reserved (R50). -/
theorem decodeCommand_cases (w : Word) :
    (w.toNat % 16 = 0 ∧ decodeCommand w = .ok (.nop (w.extractLsb' 4 28)))
    ∨ (w.toNat % 16 = 1 ∧ decodeCommand w = .ok (.start (w.extractLsb' 4 28)))
    ∨ (w.toNat % 16 = 2 ∧ decodeCommand w = .ok (.clear (w.extractLsb' 4 28)))
    ∨ (3 ≤ w.toNat % 16 ∧ decodeCommand w = .error (.reservedCommand w)) := by
  unfold decodeCommand
  simp only [Machine.cmdOf_eq_iff, BitVec.toNat_ofNat]
  split_ifs with h0 h1 h2
  · exact .inl ⟨h0, rfl⟩
  · exact .inr (.inl ⟨h1, rfl⟩)
  · exact .inr (.inr (.inl ⟨h2, rfl⟩))
  · exact .inr (.inr (.inr ⟨by simp at h0 h1 h2; omega, rfl⟩))

end Sys2Proof
end

