-- ==== Sys2Proof/Laws/Jacobi.lean ====
section
/-! SUPPORT. The bounded recursion of `goWithin` does not depend on its bound once the bound is above the
first argument, which is why `go` (R79) may stop counting at a + 1. -/

namespace Sys2Proof.Machine

/-- One call of `go` with a bound to spare (R79). -/
theorem goWithin_succ (fuel a p : Nat) (s : Int) :
    goWithin (fuel + 1) a p s =
      if a = 0 then (if p = 1 then s else 0)
      else if a % 2 = 0 then goWithin fuel (a / 2) p (if halveFlips p then -s else s)
      else goWithin fuel (p % a) a (if swapFlips a p then -s else s) := rfl

/-- Any bound above the first argument gives the same value. -/
theorem goWithin_enough {f g a : Nat} (p : Nat) (s : Int) (hf : a < f) (hg : a < g) :
    goWithin f a p s = goWithin g a p s := by
  induction f generalizing g a p s with
  | zero => omega
  | succ f ih =>
    obtain ⟨g, rfl⟩ : ∃ k, g = k + 1 := ⟨g - 1, by omega⟩
    rw [goWithin_succ, goWithin_succ]
    split_ifs with h0 h1 h2
    all_goals first
      | rfl
      | exact ih _ _ (by omega) (by omega)
      | (have := Nat.mod_lt p (Nat.pos_of_ne_zero h0); exact ih _ _ (by omega) (by omega))

end Sys2Proof.Machine
end

