-- ==== Sys2Proof/Laws/PerInstr.lean ====
section
/-! SUPPORT. One statement made per instruction: its encoding lies in its row of the opcode table, that is,
under the row's mask it is the row's match value. -/

namespace Sys2Proof.Laws.TableRow

/-- The encoding of an instruction, masked by its row of the opcode table, is the row's match value. -/
def Statement (i : Instr) : Prop :=
  match i with
  | .rd _ => ∃ r, encode i = .record r ∧ r &&& 0xFFFFF000FFFFFFFF#64 = 0x0000000000000000#64
  | .wr _ _ => ∃ r, encode i = .record r ∧ r &&& 0xFFFFF00000000000#64 = 0x8000000000000000#64
  | .nop _ => ∃ w, encode i = .command w ∧ w &&& 0x0000000F#32 = 0x0#32
  | .start _ => ∃ w, encode i = .command w ∧ w &&& 0x0000000F#32 = 0x1#32
  | .clear _ => ∃ w, encode i = .command w ∧ w &&& 0x0000000F#32 = 0x2#32

theorem rd (off : Offset) : Statement (.rd off) := by
  refine ⟨_, rfl, BitVec.eq_of_getLsbD_eq fun i hi => ?_⟩
  rw [BitVec.getLsbD_and, rdRecord_getLsbD]
  interval_cases i <;> simp

theorem wr (off : Offset) (data : Word) : Statement (.wr off data) := by
  refine ⟨_, rfl, BitVec.eq_of_getLsbD_eq fun i hi => ?_⟩
  rw [BitVec.getLsbD_and, wrRecord_getLsbD]
  interval_cases i <;> simp

theorem nop (rsv : BitVec 28) : Statement (.nop rsv) := by
  refine ⟨_, rfl, BitVec.eq_of_getLsbD_eq fun i hi => ?_⟩
  rw [BitVec.getLsbD_and, commandWord_getLsbD]
  interval_cases i <;> simp

theorem start (rsv : BitVec 28) : Statement (.start rsv) := by
  refine ⟨_, rfl, BitVec.eq_of_getLsbD_eq fun i hi => ?_⟩
  rw [BitVec.getLsbD_and, commandWord_getLsbD]
  interval_cases i <;> simp

theorem clear (rsv : BitVec 28) : Statement (.clear rsv) := by
  refine ⟨_, rfl, BitVec.eq_of_getLsbD_eq fun i hi => ?_⟩
  rw [BitVec.getLsbD_and, commandWord_getLsbD]
  interval_cases i <;> simp

end Sys2Proof.Laws.TableRow
end

