-- ==== Sys2Proof/Laws/Step.lean ====
section
/-! SUPPORT. What a step can do, said once: a turn of the engine, a reset, a read, a command, or a write
that is no command. Claims about steps are derived from `step_cases`. -/

namespace Sys2Proof.Machine

/-- A command word in the host's hands does what the word does when written to CTRL (R60, R70). -/
theorem step_command {s : State} {w : Word} {rest : List Event} (hin : s.inputs = .host (.command w) :: rest) :
    step s = .next { s with inputs := rest, block := command w s.block } := by
  unfold step
  rw [hin]
  have hdec : decode (.command w) = decodeCommand w := rfl
  simp only [hdec]
  obtain ⟨h, hd⟩ | ⟨h, hd⟩ | ⟨h, hd⟩ | ⟨h, hd⟩ := decodeCommand_cases w
  all_goals
    rw [hd]
    simp only [exec, execNop, execStart, execClear, undecodable, command, cmdOf_eq_iff, BitVec.toNat_ofNat,
      ne_eq, h]
  · simp
  · simp
  · simp
  · rw [if_neg (by norm_num; omega), if_pos (by norm_num; omega)]

/-- With no command as the next input, none is accepted and none rejected (R70). -/
theorem no_command {s : State} (h : s.nextCommand = none) :
    ¬ s.acceptsStart ∧ ¬ s.acceptsClear ∧ ¬ s.rejectsCommand := by
  simp [State.acceptsStart, State.acceptsClear, State.rejectsCommand, h]

/-- Which commands are accepted and which rejected, by the command word and the control state (R70). -/
theorem command_verdict {s : State} {w : Word} (h : s.nextCommand = some (cmdOf w)) :
    (s.acceptsStart ↔ w.toNat % 16 = 1 ∧ s.block.fsm ≠ .busy)
    ∧ (s.acceptsClear ↔ w.toNat % 16 = 2 ∧ s.block.fsm ≠ .busy)
    ∧ (s.rejectsCommand ↔ 3 ≤ w.toNat % 16 ∨ (w.toNat % 16 ≠ 0 ∧ s.block.fsm = .busy)) := by
  refine ⟨by simp [State.acceptsStart, h, cmdOf_eq_iff], by simp [State.acceptsClear, h, cmdOf_eq_iff], ?_⟩
  have h0 : cmdOf w = 0#4 ↔ w.toNat % 16 = 0 := by rw [cmdOf_eq_iff]; rfl
  simp only [State.rejectsCommand, h, Option.some.injEq, exists_eq_left', cmdOf_toNat, ne_eq, h0]

/-- Every way in which a step answers a next state. -/
theorem step_cases {s t : State} (h : step s = .next t) :
    ((s.inputs = [] ∨ s.inputs.head? = some .microStep) ∧ s.nextCommand = none
      ∧ t = { s with inputs := s.inputs.tail, block := engineTurn s.block })
    ∨ (s.takesReset ∧ s.nextCommand = none
      ∧ t = { s with inputs := s.inputs.tail, block := Block.reset s.cfg.nw })
    ∨ (∃ e off, s.inputs.head? = some (.host e) ∧ decode e = .ok (.rd off) ∧ s.nextCommand = none
      ∧ t = { s with inputs := s.inputs.tail,
                     returned := readValue s.block (decodeOffset s.cfg.nw off) :: s.returned })
    ∨ (∃ e w, s.inputs.head? = some (.host e) ∧ ctrlData s.cfg.nw e = some w
      ∧ s.nextCommand = some (cmdOf w)
      ∧ t = { s with inputs := s.inputs.tail, block := command w s.block })
    ∨ (∃ e off data, s.inputs.head? = some (.host e) ∧ decode e = .ok (.wr off data)
      ∧ decodeOffset s.cfg.nw off ≠ .ctrl ∧ s.nextCommand = none
      ∧ t = { s with inputs := s.inputs.tail,
                     block := writeEffect s.block (decodeOffset s.cfg.nw off) data }) := by
  rcases hin : s.inputs with _ | ⟨_ | _ | _, rest⟩
  · refine .inl ⟨.inl rfl, by simp [State.nextCommand, hin], ?_⟩
    simp only [step, hin, Host.Outcome.next.injEq] at h
    subst h
    simp only [hostIdle, turnOfEngine, hin, List.tail_nil]
  · rename_i e
    cases e with
    | command w =>
      rw [step_command hin, Host.Outcome.next.injEq] at h
      refine .inr (.inr (.inr (.inl ⟨_, w, rfl, rfl, by simp [State.nextCommand, hin, ctrlData], ?_⟩)))
      exact h.symm
    | record r =>
      have hdec : decode (.record r) = decodeRecord r := rfl
      obtain ⟨off, hd⟩ | ⟨off, data, hd⟩ | hd := decodeRecord_cases r
      all_goals simp only [step, hin, hdec, hd, exec, execRd, execWr, undecodable, Host.Outcome.next.injEq,
        reduceCtorEq] at h
      · exact .inr (.inr (.inl ⟨_, off, rfl, by rw [hdec, hd],
          by simp [State.nextCommand, hin, ctrlData, hd], h.symm⟩))
      · by_cases hc : decodeOffset s.cfg.nw off = .ctrl
        · refine .inr (.inr (.inr (.inl ⟨_, data, rfl, by simp [ctrlData, hd, hc],
            by simp [State.nextCommand, hin, ctrlData, hd, hc], ?_⟩)))
          rw [← h, hc]
          rfl
        · exact .inr (.inr (.inr (.inr ⟨_, off, data, rfl, by rw [hdec, hd], hc,
            by simp [State.nextCommand, hin, ctrlData, hd, hc], h.symm⟩)))
  · refine .inl ⟨.inr rfl, by simp [State.nextCommand, hin], ?_⟩
    simp only [step, hin, Host.Outcome.next.injEq] at h
    exact h.symm
  · refine .inr (.inl ⟨by simp [State.takesReset, hin], by simp [State.nextCommand, hin], ?_⟩)
    simp only [step, hin, Host.Outcome.next.injEq] at h
    exact h.symm

end Sys2Proof.Machine
end

