-- ==== Sys2Proof/Machine/HostText.lean ====
section
/-! DEFINITION. The written form of a host program's lines (R58) and of the pseudo-instructions WROP, POLL
and JACOBI (R59, R61, R62): from the characters of one line to its statement. Labels, names and branches
belong to the host (R58); a line's label and the names it binds are kept, and no branch is run. -/

namespace Sys2Proof.Machine

/-- A label or a host-side name. -/
abbrev Name := List Char

/-- The pieces of a line (R58). -/
inductive Token where
  | word (cs : List Char)
  | colon | comma | leftBracket | rightBracket | leftParen | rightParen | arrow
  deriving DecidableEq, Repr

/-- `line` of R58: an optional label, a statement, and the names its reads are bound to. -/
structure Line where
  label : Option Name
  stmt : Stmt
  names : List Name
  deriving DecidableEq, Repr

/-- The word collected so far (its characters newest first), before the tokens that follow it. -/
def endWord (acc : List Char) (ts : List Token) : List Token :=
  if acc = [] then ts else .word acc.reverse :: ts

/-- The tokens of a line; a semicolon begins a comment, which is dropped. -/
def tokensFrom : List Char → List Char → Option (List Token)
  | [], acc => some (endWord acc [])
  | '-' :: '>' :: cs, acc => (tokensFrom cs []).map fun ts => endWord acc (.arrow :: ts)
  | c :: cs, acc =>
    if c.isAlphanum || c = '_' then tokensFrom cs (c :: acc)
    else if c = ';' then some (endWord acc [])
    else if c = ' ' then (tokensFrom cs []).map (endWord acc)
    else if c = ':' then (tokensFrom cs []).map fun ts => endWord acc (.colon :: ts)
    else if c = ',' then (tokensFrom cs []).map fun ts => endWord acc (.comma :: ts)
    else if c = '[' then (tokensFrom cs []).map fun ts => endWord acc (.leftBracket :: ts)
    else if c = ']' then (tokensFrom cs []).map fun ts => endWord acc (.rightBracket :: ts)
    else if c = '(' then (tokensFrom cs []).map fun ts => endWord acc (.leftParen :: ts)
    else if c = ')' then (tokensFrom cs []).map fun ts => endWord acc (.rightParen :: ts)
    else none

/-- The value of a digit, hexadecimal ones included. -/
def digitValue (c : Char) : Option Nat :=
  if c.isDigit then some (c.toNat - '0'.toNat)
  else if 'a'.toNat ≤ c.toNat ∧ c.toNat ≤ 'f'.toNat then some (c.toNat - 'a'.toNat + 10)
  else if 'A'.toNat ≤ c.toNat ∧ c.toNat ≤ 'F'.toNat then some (c.toNat - 'A'.toNat + 10)
  else none

/-- Digits in a base, most significant first; an underscore inside only groups digits (R8). -/
def parseDigits (base : Nat) (cs : List Char) : Option Nat :=
  if cs.head?.all (· = '_') || cs.getLast?.all (· = '_') then none
  else cs.foldlM (fun v c =>
    if c = '_' then some v else (digitValue c).bind fun d => if d < base then some (base * v + d) else none) 0

/-- `numeral` of R58. -/
def parseNumeral : List Char → Option Nat
  | '0' :: 'x' :: cs => parseDigits 16 cs
  | cs => parseDigits 10 cs

/-- A name or label begins with a letter, so that it is no numeral. -/
def parseName (cs : List Char) : Option Name := if cs.head?.any Char.isAlpha then some cs else none

/-- `target` of R58 at the head of the tokens, and the tokens after it. -/
def parseTarget : List Token → Option (Target × List Token)
  | .word w :: .leftBracket :: .word i :: .rightBracket :: ts =>
    if w = "A_WORD".toList then (parseNumeral i).map fun i => (.aWord i, ts)
    else if w = "N_WORD".toList then (parseNumeral i).map fun i => (.nWord i, ts)
    else none
  | .word w :: ts =>
    if w = "ID".toList then some (.id, ts)
    else if w = "PARAM".toList then some (.param, ts)
    else if w = "CTRL".toList then some (.ctrl, ts)
    else if w = "STATUS".toList then some (.status, ts)
    else if w = "RESULT".toList then some (.result, ts)
    else (parseNumeral w).map fun o => (.offset o, ts)
  | _ => none

/-- `value` of R58. -/
def parseValue (w : List Char) : Option Value :=
  if w = "NOP".toList then some .nop
  else if w = "START".toList then some .start
  else if w = "CLEAR".toList then some .clear
  else (parseNumeral w).map .numeral

/-- The X of `WROP X, v` (R59). -/
def parseOperand (w : List Char) : Option Operand :=
  if w = "A".toList then some .a else if w = "N".toList then some .n else none

/-- RD (R58): a target and at most one name. -/
def readStmt (ts : List Token) : Option (Stmt × List Name) :=
  match parseTarget ts with
  | some (t, []) => some (.rd t, [])
  | some (t, [.arrow, .word x]) => (parseName x).map fun x => (.rd t, [x])
  | _ => none

/-- WR (R58): a target and a value. -/
def writeStmt (ts : List Token) : Option (Stmt × List Name) :=
  match parseTarget ts with
  | some (t, [.comma, .word v]) => (parseValue v).map fun v => (.wr t v, [])
  | _ => none

/-- `stmt` of R58. How often a POLL reads STATUS is no part of the text: the host decides it (I15). -/
def stmtOf (reads : Nat) : List Token → Option (Stmt × List Name)
  | .word w :: ts =>
    if w = "RD".toList then readStmt ts
    else if w = "WR".toList then writeStmt ts
    else if w = "WROP".toList then
      match ts with
      | [.word x, .comma, .word v] => do return (.wrop (← parseOperand x) (← parseNumeral v), [])
      | [.word x, .comma, .word v, .comma, .word k] =>
        do return (.wropShort (← parseOperand x) (← parseNumeral v) (← parseNumeral k), [])
      | _ => none
    else if w = "NOP".toList then if ts = [] then some (.nop, []) else none
    else if w = "START".toList then if ts = [] then some (.start, []) else none
    else if w = "CLEAR".toList then if ts = [] then some (.clear, []) else none
    else if w = "POLL".toList then
      match ts with
      | [.arrow, .word s] => do return (.poll reads, [← parseName s])
      | _ => none
    else if w = "JACOBI".toList then
      match ts with
      | [.word a, .comma, .word n, .arrow, .leftParen, .word s, .comma, .word r, .rightParen] =>
        do return (.jacobi (← parseNumeral a) (← parseNumeral n) reads, [← parseName s, ← parseName r])
      | _ => none
    else none
  | _ => none

/-- `line` of R58. -/
def lineOf (reads : Nat) (cs : List Char) : Option Line :=
  match tokensFrom cs [] with
  | some (.word l :: .colon :: ts) => do
    let l ← parseName l
    let (st, ns) ← stmtOf reads ts
    return ⟨some l, st, ns⟩
  | some ts => do
    let (st, ns) ← stmtOf reads ts
    return ⟨none, st, ns⟩
  | none => none

end Sys2Proof.Machine
end

