-- ==== Sys2Proof/Tests/Slice0.lean ====
section
/-! SUPPORT. Tests. Expected values come from 95_test_vectors.md (V-…, P…) and from the rules' own examples.
Then, for every obligation that has hypotheses, a theorem `witness_<Obligation>` with a concrete state and
operands that meet them together. Small states only: a W = 64 instance (program P5's configuration). -/

namespace Sys2Proof.Tests

open Sys2Proof Sys2Proof.Machine

/-! ## Decoding: one word for every row, written out from R48 and R49 -/

/-- R48: dir 0, zeros, off 0x00C, zeros: its second example. -/
theorem test_decode_rd : decode (.record 0b0000000000000000000000000000110000000000000000000000000000000000#64)
    = .ok (.rd 0x00C#12) := by decide

/-- R48: dir 1, zeros, off 0x200, data 0x15: its third example. -/
theorem test_decode_wr : decode (.record 0b1000000000000000000000100000000000000000000000000000000000010101#64)
    = .ok (.wr 0x200#12 0x00000015#32) := by decide

/-- R49, R50; V-C18: CMD 0x0 below ignored ones. -/
theorem test_decode_nop : decode (.command 0b11111111111111111111111111110000#32) = .ok (.nop 0xFFFFFFF#28) := by
  decide

/-- R49, R50; V-C19: 0xABCDE001 is START. -/
theorem test_decode_start : decode (.command 0b10101011110011011110000000000001#32)
    = .ok (.start 0xABCDE00#28) := by decide

/-- R49, R50; V-C20. -/
theorem test_decode_clear : decode (.command 0b00000000000000000000000000000010#32) = .ok (.clear 0#28) := by decide

/-- R74; V-C17: 0x00000013 has CMD 0x3. -/
theorem test_decode_reserved : decode (.command 0x00000013#32) = .error (.reservedCommand 0x00000013#32) := by
  decide

/-- R48: bit 44 must be zero, and the data of an RD must be. -/
theorem test_decode_malformed :
    decode (.record 0x8000100000000000#64) = .error (.mustBeZero 0x8000100000000000#64)
    ∧ decode (.record 0x0000000000000001#64) = .error (.mustBeZero 0x0000000000000001#64) := by decide

/-! ## Well-formedness: each check refuses an ill-formed term (R58 to R62, W = 64) -/

theorem test_wellFormed_aWord : Stmt.wellFormed .twoWords (.rd (.aWord 2)) = false := by decide
theorem test_wellFormed_nWord : Stmt.wellFormed .twoWords (.rd (.nWord 2)) = false := by decide
theorem test_wellFormed_offset : Stmt.wellFormed .twoWords (.rd (.offset 0x1000)) = false := by decide
theorem test_wellFormed_wrTarget : Stmt.wellFormed .twoWords (.wr (.aWord 2) .start) = false := by decide
theorem test_wellFormed_value : Stmt.wellFormed .twoWords (.wr .ctrl (.numeral (2 ^ 32))) = false := by decide
theorem test_wellFormed_wrop : Stmt.wellFormed .twoWords (.wrop .a (2 ^ 64)) = false := by decide
theorem test_wellFormed_wropShort_value : Stmt.wellFormed .twoWords (.wropShort .n (2 ^ 64) 1) = false := by decide
theorem test_wellFormed_wropShort_none : Stmt.wellFormed .twoWords (.wropShort .n 5 0) = false := by decide
theorem test_wellFormed_wropShort_many : Stmt.wellFormed .twoWords (.wropShort .n 5 3) = false := by decide
theorem test_wellFormed_poll : Stmt.wellFormed .twoWords (.poll 0) = false := by decide
theorem test_wellFormed_jacobi_a : Stmt.wellFormed .twoWords (.jacobi (2 ^ 64) 3 1) = false := by decide
theorem test_wellFormed_jacobi_n : Stmt.wellFormed .twoWords (.jacobi 1 (2 ^ 64) 1) = false := by decide
theorem test_wellFormed_jacobi_reads : Stmt.wellFormed .twoWords (.jacobi 1 3 0) = false := by decide
theorem test_wellFormed_accepts : Stmt.wellFormed .twoWords (.jacobi (2 ^ 64 - 1) (2 ^ 64 - 1) 1) = true
    ∧ Stmt.wellFormed .twoWords (.wr (.nWord 1) (.numeral (2 ^ 32 - 1))) = true
    ∧ Stmt.wellFormed .twoWords (.rd (.offset 0xFFF)) = true := by decide

/-! ## Small states -/

/-- Operands (a, n) in a reset W = 64 block. -/
def operands (a n : Nat) : Block Config.twoWords.nw :=
  { Block.reset 2 with
    aWord := #v[BitVec.ofNat 32 a, BitVec.ofNat 32 (a / 2 ^ 32)]
    nWord := #v[BitVec.ofNat 32 n, BitVec.ofNat 32 (n / 2 ^ 32)] }

/-- A BUSY block at (wa, wp, wt). -/
def working (wa wp : Nat) (wt : Bool) : Block Config.twoWords.nw :=
  { Block.reset 2 with fsm := .busy, wa := BitVec.ofNat 64 wa, wp := BitVec.ofNat 64 wp, wt := wt }

/-- A block in ERROR, or with a command error, or with a result. -/
def outcome (fsm : Fsm) (errcode : BitVec 4) (cmderr : Bool) (result : Word) : Block Config.twoWords.nw :=
  { Block.reset 2 with fsm := fsm, errcode := errcode, cmderr := cmderr, result := result }

/-- A W = 64 machine with a block and the inputs to come. -/
def machine (b : Block Config.twoWords.nw) (inputs : List Event) : State := ⟨.twoWords, b, inputs, []⟩

def startEvent : Event := .host (.record 0x8000000800000001#64)
def clearEvent : Event := .host (.record 0x8000000800000002#64)

/-- The state after a step or an instruction, if there is one. -/
def next? (o : Host.Outcome State Fault Refusal) : Option State :=
  match o with
  | .next t => some t
  | .fault _ => none
  | .refused _ => none

/-- What the host read, the STATUS it would read next, and (wa, wp, wt). -/
def reads (o : Host.Outcome State Fault Refusal) : Option (List Word) := (next? o).map (·.returned)
def status (o : Host.Outcome State Fault Refusal) : Option Word := (next? o).map (·.block.statusWord)
def registers (o : Host.Outcome State Fault Refusal) : Option (Nat × Nat × Bool) :=
  (next? o).map fun t => (t.block.wa.toNat, t.block.wp.toNat, t.block.wt)
def result (o : Host.Outcome State Fault Refusal) : Option Word := (next? o).map (·.block.result)

/-! ## One step each -/

/-- V-A7: RD 0x003 reaches ID. -/
theorem test_rd_ignores_low_bits : reads (exec (.rd 0x003#12) (machine (operands 5 21) [])) = some [0x4A430001#32] := by
  decide

/-- P5: with NW = 2, 0x108 is unmapped, and PARAM reads 2. -/
theorem test_rd_unmapped_and_param :
    reads (exec (.rd 0x108#12) (machine (operands (2 ^ 64 - 1) 21) [])) = some [0#32]
    ∧ reads (exec (.rd 0x004#12) (machine (operands 5 21) [])) = some [0x00000002#32] := by decide

/-- V-A9: WR 0x102 writes A_WORD[0]; here A_WORD[1], through 0x106, so that the index counts. -/
theorem test_wr_ignores_low_bits :
    (next? (exec (.wr 0x106#12 0xCAFEF00D#32) (machine (operands 5 21) []))).map (fun t => (t.block.aVal, t.block.nVal))
      = some (0xCAFEF00D00000005, 21) := by decide

/-- V-A13: a write to STATUS is ignored. -/
theorem test_wr_status_ignored :
    next? (exec (.wr 0x00C#12 0xFFFFFFFF#32) (machine (outcome .error 1#4 true 0#32) []))
      = some (machine (outcome .error 1#4 true 0#32) []) := by decide

/-- V-C14: NOP while BUSY. -/
theorem test_nop_busy : next? (exec (.nop 0xFFFFFFF#28) (machine (working 5 21 true) []))
    = some (machine (working 5 21 true) []) := by decide

/-- V-C3: N even is reported before A = 0; V-C6: A ≥ N. -/
theorem test_start_faults :
    status (exec (.start 0#28) (machine (operands 0 20) [])) = some 0x00000014#32
    ∧ status (exec (.start 0#28) (machine (operands 22 21) [])) = some 0x00000034#32 := by decide

/-- V-C1, and the multi-word operands of P5: the snapshot takes every word, word 0 least significant. -/
theorem test_start_snapshot :
    registers (exec (.start 0#28) (machine (operands 5 21) [])) = some (5, 21, false)
    ∧ registers (exec (.start 0#28) (machine (operands (2 ^ 32 + 5) (2 ^ 61 - 1)) []))
      = some (4294967301, 2305843009213693951, false) := by decide

/-- V-C20. -/
theorem test_clear_error : status (exec (.clear 0#28) (machine (outcome .error 1#4 true 0#32) [])) = some 0#32 := by
  decide

/-- V-C13: CLEAR while BUSY is rejected and disturbs nothing. -/
theorem test_clear_busy :
    status (exec (.clear 0#28) (machine (working 5 21 true) [])) = some 0x00000009#32
    ∧ registers (exec (.clear 0#28) (machine (working 5 21 true) [])) = some (5, 21, true) := by decide

/-- V-C17: the reserved word 0x00000013 at the port. -/
theorem test_reserved : status (step (machine (operands 5 21) [.host (.record 0x8000000800000013#64)]))
    = some 0x00000008#32 := by decide

/-- V-E2, V-E4: FINISH. -/
theorem test_finish :
    result (step (machine (working 0 1 true) [.microStep])) = some 0xFFFFFFFF#32
    ∧ result (step (machine (working 0 15 true) [.microStep])) = some 0x00000000#32 := by decide

/-- V-E7, V-E8: HALVE with and without a flip. -/
theorem test_halve :
    registers (step (machine (working 8 21 false) [.microStep])) = some (4, 21, true)
    ∧ registers (step (machine (working 6 7 true) [.microStep])) = some (3, 7, true) := by decide

/-- V-E15, V-E16: SWAP without and with a flip. -/
theorem test_swap :
    registers (step (machine (working 1001 9907 false) [.microStep])) = some (898, 1001, false)
    ∧ registers (step (machine (working 7 11 true) [.microStep])) = some (4, 7, false) := by decide

/-- V-R2: reset while BUSY. -/
theorem test_reset_busy : next? (step (machine { operands 1001 9907 with fsm := .busy } [.reset]))
    = some (machine (operands 0 0) []) := by decide

/-- The symbols of V-J12, V-J21, V-J22 and V-J25. -/
theorem test_jac : jac 6 9 = 0 ∧ jac 8 21 = -1 ∧ jac 19 45 = 1 ∧ jac 6 11 = -1 := by decide

/-- R59: WROP N, v of the example of R56: 2^61 - 1 at W = 64. -/
theorem test_wrop : expand 2 (.wrop .n (2 ^ 61 - 1))
    = [.wr 0x200#12 0xFFFFFFFF#32, .wr 0x204#12 0x1FFFFFFF#32] := by decide

/-- Lines of programs P1, P3 and P5, and the form of R62 (R58, R8). -/
theorem test_lines :
    lineOf 1 "WR N_WORD[0], 0x000026B3    ; N = 9907".toList = some ⟨none, .wr (.nWord 0) (.numeral 9907), []⟩
    ∧ lineOf 1 "WR CTRL, START".toList = some ⟨none, .wr .ctrl .start, []⟩
    ∧ lineOf 1 "poll1:  RD STATUS -> s1".toList = some ⟨some ['p', 'o', 'l', 'l', '1'], .rd .status, [['s', '1']]⟩
    ∧ lineOf 1 "RD 0x108 -> x".toList = some ⟨none, .rd (.offset 0x108), [['x']]⟩
    ∧ lineOf 1 "WROP A, 0x1_00000005".toList = some ⟨none, .wrop .a 4294967301, []⟩
    ∧ lineOf 7 "JACOBI 1001, 9907 -> (s, r)".toList = some ⟨none, .jacobi 1001 9907 7, [['s'], ['r']]⟩
    ∧ lineOf 1 "WR A_WORD[0] 5".toList = none ∧ lineOf 1 "ABORT".toList = none := by decide

/-- A row of the opcode table runs as the first instruction after reset (R46). -/
theorem test_first_instruction :
    reads (step (State.reset.withFetchWord 64 0)) = some [0x4A430001#32]
    ∧ status (step (State.reset.withFetchWord 32 3)) = some 0x00000008#32 := by decide

/-! ## Witnesses: states and operands that meet the hypotheses of the obligations -/

/-- START on valid operands (V-C1). -/
def starting : State := machine (operands 5 21) [startEvent]

/-- START on operands that break the precondition (V-C2). -/
def faulting : State := machine (operands 3 20) [startEvent]

/-- A fault recorded, with a command error (V-C22), and the host's CLEAR. -/
def clearing : State := machine (outcome .error 1#4 true 0#32) [clearEvent]

/-- A result held (V-C21), and the host's CLEAR. -/
def clearingDone : State := machine (outcome .done 0#4 false 0xFFFFFFFF#32) [clearEvent]

/-- CLEAR while BUSY (V-C13). -/
def rejecting : State := machine (working 5 21 false) [clearEvent]

/-- The engine's last turn (V-E2). -/
def finishing : State := machine (working 0 1 true) [.microStep]

/-- A reset while BUSY. -/
def resetting : State := machine (working 5 21 false) [.reset]

theorem starting_accepts : starting.acceptsStart := ⟨by decide, by decide⟩
theorem starting_precondition : starting.block.preconditionHolds := ⟨by decide, by decide, by decide⟩
theorem faulting_accepts : faulting.acceptsStart := ⟨by decide, by decide⟩
theorem faulting_breaks : ¬ faulting.block.preconditionHolds := fun h => absurd h.1 (by decide)
theorem clearing_accepts : clearing.acceptsClear := ⟨by decide, by decide⟩
theorem clearingDone_accepts : clearingDone.acceptsClear := ⟨by decide, by decide⟩
theorem rejecting_rejects : rejecting.rejectsCommand := ⟨0x2#4, by decide, .inr ⟨by decide, by decide⟩⟩
theorem finishing_runs : finishing.engineRuns := ⟨by decide, .inl (by decide)⟩
theorem resetting_takes : resetting.takesReset := by unfold State.takesReset; decide

theorem working_computes : (working 6 9 false).ComputesFrom 6 9 :=
  ⟨by decide, by decide, by decide, by decide, by decide, by decide, by decide, by decide⟩

theorem working_legal : (working 5 21 false).Legal :=
  ⟨by decide, by decide, by decide, by decide, by decide, by decide⟩

theorem error_legal : (outcome .error 3#4 true 0#32).Legal :=
  ⟨by decide, by decide, by decide, by decide, by decide, by decide⟩

theorem done_legal : (outcome .done 0#4 false 0xFFFFFFFF#32).Legal :=
  ⟨by decide, by decide, by decide, by decide, by decide, by decide⟩

theorem idle_legal : (operands 5 21).Legal :=
  ⟨by decide, by decide, by decide, by decide, by decide, by decide⟩

/-- A record with a bit set at each end of the zero field, and an RD with data at each end. -/
theorem witness_TraceRecordFormat :
    (0x0000100000000000#64).extractLsb' 44 19 ≠ 0#19 ∧ (0x4000000000000000#64).extractLsb' 44 19 ≠ 0#19
    ∧ ((0x0000000000000001#64).getLsbD 63 = false ∧ (0x0000000000000001#64).extractLsb' 0 32 ≠ 0#32)
    ∧ ((0x0000000080000000#64).getLsbD 63 = false ∧ (0x0000000080000000#64).extractLsb' 0 32 ≠ 0#32) := by decide

theorem witness_CommandOpcodeMap :
    (0xFFFFFFF0#32).toNat % 16 = 0 ∧ (0x00000011#32).toNat % 16 = 1 ∧ (0x00000002#32).toNat % 16 = 2
    ∧ 3 ≤ (0x00000003#32).toNat % 16 ∧ 3 ≤ (0xFFFFFFFF#32).toNat % 16
    ∧ ∃ t, exec (.wr 0x008#12 0x00000011#32) starting = .next t ∧ starting.block.fsm ≠ .busy
        ∧ t.block.fsm = .busy := by
  refine ⟨by decide, by decide, by decide, by decide, by decide, _, rfl, by decide, by decide⟩

theorem witness_EncodeOfDecode :
    decode (.record 0x8000020000000015#64) = .ok (.wr 0x200#12 0x15#32)
    ∧ decode (.command 0xABCDE001#32) = .ok (.start 0xABCDE00#28) := by decide

theorem witness_StepRunsDecodedInstruction :
    starting.inputs = .host (.record 0x8000000800000001#64) :: []
    ∧ decode (.record 0x8000000800000001#64) = .ok (.wr 0x008#12 1#32)
    ∧ decodeTableWord 64 0x0000000C00000000 = some (.rd 0x00C#12)
    ∧ decodeTableWord 32 0x00000012 = some (.clear 1#28) := by decide

theorem witness_IgnoredCommandBits :
    decodeOffset starting.cfg.nw 0x008#12 = .ctrl ∧ decodeOffset starting.cfg.nw 0x00B#12 = .ctrl
    ∧ (0x00000001#32).toNat % 16 = (0xFFFFFFF1#32).toNat % 16 := by decide

/-- Each row of the map of R31 at its first and its last offset, for NW = 2 and for NW = 64. -/
theorem witness_RegisterMap :
    decodeOffset 2 0x003#12 = .id ∧ decodeOffset 2 0x007#12 = .param ∧ decodeOffset 2 0x00B#12 = .ctrl
    ∧ decodeOffset 2 0x00F#12 = .status ∧ decodeOffset 2 0x013#12 = .result
    ∧ decodeOffset 2 0x014#12 = .unmapped ∧ decodeOffset 2 0x0FF#12 = .unmapped
    ∧ decodeOffset 2 0x100#12 = .aWord 0 ∧ decodeOffset 2 0x107#12 = .aWord 1
    ∧ decodeOffset 2 0x108#12 = .unmapped ∧ decodeOffset 2 0x1FF#12 = .unmapped
    ∧ decodeOffset 2 0x200#12 = .nWord 0 ∧ decodeOffset 2 0x207#12 = .nWord 1
    ∧ decodeOffset 2 0x208#12 = .unmapped ∧ decodeOffset 2 0x2FF#12 = .unmapped
    ∧ decodeOffset 2 0x300#12 = .unmapped ∧ decodeOffset 2 0xFFF#12 = .unmapped
    ∧ decodeOffset 64 0x1FF#12 = .aWord 63 ∧ decodeOffset 64 0x2FF#12 = .nWord 63
    ∧ decodeOffset 64 0x300#12 = .unmapped := by decide

/-- The two hypotheses at the ends of every range, NW = 2. -/
theorem witness_UnmappedAndWrongDirection :
    starting.cfg.nw = 2
    ∧ (0x014#12 &&& 0xFFC#12).toNat = 0x014 ∧ (0x0FF#12 &&& 0xFFC#12).toNat = 0x0FC
    ∧ (0x108#12 &&& 0xFFC#12).toNat = 0x100 + 4 * 2 ∧ (0x1FF#12 &&& 0xFFC#12).toNat = 0x1FC
    ∧ (0x208#12 &&& 0xFFC#12).toNat = 0x200 + 4 * 2 ∧ (0x2FF#12 &&& 0xFFC#12).toNat = 0x2FC
    ∧ (0x300#12 &&& 0xFFC#12).toNat = 0x300 ∧ (0xFFF#12 &&& 0xFFC#12).toNat = 0xFFC
    ∧ (0x00B#12 &&& 0xFFC#12).toNat = 0x008 ∧ (0x003#12 &&& 0xFFC#12).toNat = 0x000
    ∧ (0x007#12 &&& 0xFFC#12).toNat = 0x004 ∧ (0x00F#12 &&& 0xFFC#12).toNat = 0x00C
    ∧ (0x013#12 &&& 0xFFC#12).toNat = 0x010 := by decide

theorem witness_ReadReturnsRegister :
    (0x003#12 &&& 0xFFC#12).toNat = 0x000 ∧ (0x007#12 &&& 0xFFC#12).toNat = 0x004
    ∧ (0x00B#12 &&& 0xFFC#12).toNat = 0x008 ∧ (0x00F#12 &&& 0xFFC#12).toNat = 0x00C
    ∧ (0x013#12 &&& 0xFFC#12).toNat = 0x010 ∧ (0x107#12 &&& 0xFFC#12).toNat = 0x100 + 4 * (1 : Fin 2).val
    ∧ (0x207#12 &&& 0xFFC#12).toNat = 0x200 + 4 * (1 : Fin 2).val
    ∧ decodeOffset starting.cfg.nw 0x108#12 = .unmapped
    ∧ starting.block.Legal ∧ starting.block.fsm ≠ .done := by
  refine ⟨by decide, by decide, by decide, by decide, by decide, by decide, by decide, by decide, idle_legal, by decide⟩

theorem witness_ReadLeavesBlockUnchanged :
    (machine (working 5 21 false) [.host (.record 0x0000000C00000000#64)]).inputs
      = .host (encode (.rd 0x00C#12)) :: [] := by decide

theorem witness_WriteEffectOnRegister :
    (0x00B#12 &&& 0xFFC#12).toNat = 0x008 ∧ (0x107#12 &&& 0xFFC#12).toNat = 0x100 + 4 * (1 : Fin 2).val
    ∧ (0x207#12 &&& 0xFFC#12).toNat = 0x200 + 4 * (1 : Fin 2).val ∧ (0x003#12 &&& 0xFFC#12).toNat = 0x000
    ∧ (0x007#12 &&& 0xFFC#12).toNat = 0x004 ∧ (0x00F#12 &&& 0xFFC#12).toNat = 0x00C
    ∧ (0x013#12 &&& 0xFFC#12).toNat = 0x010 ∧ decodeOffset starting.cfg.nw 0x108#12 = .unmapped := by decide

theorem witness_OperandWordReadsBack : starting.cfg.nw = 2 ∧ (0 : Fin 2) ≠ (1 : Fin 2) := by decide

theorem witness_WriteFrame :
    (∃ t, exec (.wr 0x104#12 7#32) starting = .next t) ∧ (∃ t, exec (.wr 0x204#12 7#32) starting = .next t)
    ∧ decodeOffset starting.cfg.nw 0x104#12 = .aWord (1 : Fin 2)
    ∧ decodeOffset starting.cfg.nw 0x204#12 = .nWord (1 : Fin 2)
    ∧ decodeOffset starting.cfg.nw 0x104#12 ≠ .ctrl
    ∧ (∀ i, decodeOffset starting.cfg.nw 0x204#12 ≠ .aWord i)
    ∧ (∀ i, decodeOffset starting.cfg.nw 0x104#12 ≠ .nWord i) :=
  ⟨⟨_, rfl⟩, ⟨_, rfl⟩, by decide, by decide, by decide, by decide, by decide⟩

theorem witness_IdAndParamAreConstant :
    (0x003#12 &&& 0xFFC#12) = 0x000#12 ∧ (0x007#12 &&& 0xFFC#12) = 0x004#12 ∧ (∃ t, step starting = .next t) :=
  ⟨by decide, by decide, _, rfl⟩

theorem witness_StatusWordFormat :
    (machine (outcome .error 3#4 true 0#32) []).block.Legal ∧ starting.block.Legal :=
  ⟨error_legal, idle_legal⟩

theorem witness_ResultEncoding :
    dec 0xFFFFFFFF#32 = some (-1) ∧ dec 0x00000000#32 = some 0 ∧ dec 0x00000001#32 = some 1
    ∧ (working 5 21 false).Legal ∧ (working 5 21 false).fsm ≠ .done :=
  ⟨by decide, by decide, by decide, working_legal, by decide⟩

theorem witness_ResultWriters :
    ((∃ t, step starting = .next t) ∧ starting.acceptsStart)
    ∧ ((∃ t, step clearingDone = .next t ∧ t.block.result ≠ clearingDone.block.result) ∧ clearingDone.acceptsClear)
    ∧ ((∃ t, step resetting = .next t) ∧ resetting.takesReset)
    ∧ ((∃ t, step finishing = .next t ∧ t.block.result ≠ finishing.block.result) ∧ finishing.engineRuns
        ∧ finishing.block.wa.toNat = 0)
    ∧ (outcome .done 0#4 false 0xFFFFFFFF#32).Legal :=
  ⟨⟨⟨_, rfl⟩, starting_accepts⟩, ⟨⟨_, rfl, by decide⟩, clearingDone_accepts⟩, ⟨⟨_, rfl⟩, resetting_takes⟩,
    ⟨⟨_, rfl, by decide⟩, finishing_runs, by decide⟩, done_legal⟩

theorem witness_FsmTransitions :
    ((∃ t, step starting = .next t ∧ t.block.fsm ≠ starting.block.fsm) ∧ starting.acceptsStart
        ∧ starting.block.preconditionHolds)
    ∧ ((∃ t, step faulting = .next t ∧ t.block.fsm ≠ faulting.block.fsm) ∧ faulting.acceptsStart
        ∧ ¬ faulting.block.preconditionHolds)
    ∧ ((∃ t, step clearing = .next t ∧ t.block.fsm ≠ clearing.block.fsm) ∧ clearing.acceptsClear)
    ∧ ((∃ t, step resetting = .next t ∧ t.block.fsm ≠ resetting.block.fsm) ∧ resetting.takesReset)
    ∧ ((∃ t, step finishing = .next t ∧ t.block.fsm ≠ finishing.block.fsm) ∧ finishing.engineRuns
        ∧ finishing.block.wa.toNat = 0)
    ∧ decodeOffset starting.cfg.nw 0x010#12 ≠ .status :=
  ⟨⟨⟨_, rfl, by decide⟩, starting_accepts, starting_precondition⟩,
    ⟨⟨_, rfl, by decide⟩, faulting_accepts, faulting_breaks⟩, ⟨⟨_, rfl, by decide⟩, clearing_accepts⟩,
    ⟨⟨_, rfl, by decide⟩, resetting_takes⟩, ⟨⟨_, rfl, by decide⟩, finishing_runs, by decide⟩, by decide⟩

theorem witness_ErrcodeWriters :
    ((∃ t, step faulting = .next t ∧ t.block.errcode ≠ faulting.block.errcode) ∧ faulting.acceptsStart)
    ∧ ((∃ t, step clearing = .next t) ∧ clearing.acceptsClear)
    ∧ ((∃ t, step resetting = .next t) ∧ resetting.takesReset)
    ∧ (outcome .error 3#4 true 0#32).Legal ∧ (outcome .error 3#4 true 0#32).fsm = .error
    ∧ (working 5 21 false).Legal ∧ (working 5 21 false).fsm ≠ .error :=
  ⟨⟨⟨_, rfl, by decide⟩, faulting_accepts⟩, ⟨⟨_, rfl⟩, clearing_accepts⟩, ⟨⟨_, rfl⟩, resetting_takes⟩,
    error_legal, by decide, working_legal, by decide⟩

/-- START and CLEAR while BUSY, the lowest and the highest reserved code while IDLE. -/
theorem witness_CmderrIsSticky :
    ((∃ t, step rejecting = .next t) ∧ rejecting.rejectsCommand)
    ∧ (machine (working 5 21 false) [startEvent]).rejectsCommand
    ∧ (machine (operands 5 21) [.host (.command 0x3#32)]).rejectsCommand
    ∧ (machine (operands 5 21) [.host (.command 0xF#32)]).rejectsCommand :=
  ⟨⟨⟨_, rfl⟩, rejecting_rejects⟩, ⟨0x1#4, by decide, .inr ⟨by decide, by decide⟩⟩,
    ⟨0x3#4, by decide, .inl (by decide)⟩, ⟨0xF#4, by decide, .inl (by decide)⟩⟩

theorem witness_IdleWorkingRegistersUnobservable :
    starting.block.fsm ≠ .busy ∧ (∃ t, step starting = .next t ∧ t.block.fsm = .busy) :=
  ⟨by decide, _, rfl, by decide⟩

theorem witness_CommandDispatch :
    decodeOffset starting.cfg.nw 0x008#12 = .ctrl ∧ decodeOffset starting.cfg.nw 0x00B#12 = .ctrl := by decide

theorem witness_NopChangesNothing :
    decodeOffset starting.cfg.nw 0x008#12 = .ctrl ∧ (0xFFFFFFF0#32).toNat % 16 = 0 := by decide

theorem witness_ReservedCommandSetsCmderr :
    decodeOffset starting.cfg.nw 0x008#12 = .ctrl ∧ 3 ≤ (0x00000003#32).toNat % 16
    ∧ 3 ≤ (0x0000000F#32).toNat % 16 := by decide

/-- The three cases, the valid one at its bounds A = 1 and A = N - 1 (V-C10, V-C11), the broken one for each
cause (V-C7 to V-C9). -/
theorem witness_StartOutcome :
    rejecting.block.fsm = .busy ∧ starting.block.fsm ≠ .busy
    ∧ (operands 20 21).preconditionHolds ∧ (operands 1 3).preconditionHolds
    ∧ ¬ (operands 0 0).preconditionHolds ∧ ¬ (operands 0 1).preconditionHolds
    ∧ ¬ (operands 1 1).preconditionHolds :=
  ⟨by decide, by decide, ⟨by decide, by decide, by decide⟩, ⟨by decide, by decide, by decide⟩,
    fun h => absurd h.1 (by decide), fun h => absurd h.2.1 (by decide), fun h => absurd h.2.2 (by decide)⟩

theorem witness_ClearOutcome :
    starting.block.Legal ∧ starting.block.fsm = .idle ∧ starting.block.cmderr = false
    ∧ (∃ t, exec (.wr 0x008#12 0x00000002#32) clearing = .next t ∧ clearing.block.cmderr = true
        ∧ t.block.cmderr = false)
    ∧ decodeOffset clearing.cfg.nw 0x00B#12 = .ctrl ∧ (0xFFFFFFF2#32).toNat % 16 = 2
    ∧ clearing.block.fsm = .error ∧ clearing.block.statusWord = 0x0000001C#32 :=
  ⟨idle_legal, by decide, by decide, ⟨_, rfl, by decide, by decide⟩, by decide, by decide, by decide, by decide⟩

theorem witness_CommandFrame :
    (∃ t, exec (.nop 0#28) starting = .next t) ∧ (∃ t, exec (.start 0#28) starting = .next t)
    ∧ (∃ t, exec (.clear 0#28) starting = .next t)
    ∧ Instr.nop 0#28 ≠ .start 0#28 ∧ rejecting.block.fsm = .busy ∧ ¬ faulting.block.preconditionHolds
    ∧ starting.block.fsm ≠ .busy :=
  ⟨⟨_, rfl⟩, ⟨_, rfl⟩, ⟨_, rfl⟩, by decide, by decide, faulting_breaks, by decide⟩

theorem witness_LowestFaultCodeRecorded :
    faulting.block.fsm ≠ .busy ∧ (∃ t, exec (.start 0#28) faulting = .next t)
    ∧ starting.block.fsm ≠ .busy ∧ starting.block.nVal % 2 = 1 := ⟨by decide, ⟨_, rfl⟩, by decide, by decide⟩

theorem witness_FaultEntrySavesNothingElse : faulting.block.fsm ≠ .busy ∧ ¬ faulting.block.preconditionHolds :=
  ⟨by decide, faulting_breaks⟩

theorem witness_FaultIsPrecise :
    faulting.block.fsm ≠ .busy ∧ ¬ faulting.block.preconditionHolds
    ∧ ∃ t, exec (.start 0#28) faulting = .next t := ⟨by decide, faulting_breaks, _, rfl⟩

/-- From ERROR: CLEAR, START, reset, and none of the three. -/
theorem witness_ErrorExit :
    (clearing.block.fsm = .error ∧ (∃ t, step clearing = .next t) ∧ clearing.acceptsClear
        ∧ clearing.block.cmderr = true)
    ∧ (machine { operands 5 21 with fsm := .error } [startEvent]).acceptsStart
    ∧ (machine (outcome .error 1#4 true 0#32) [.reset]).takesReset
    ∧ (let s := machine (outcome .error 1#4 true 0#32) [.microStep];
        ¬ s.acceptsClear ∧ ¬ s.acceptsStart ∧ ¬ s.takesReset ∧ ∃ t, step s = .next t) :=
  ⟨⟨by decide, ⟨_, rfl⟩, clearing_accepts, by decide⟩, ⟨by decide, by decide⟩, (by unfold State.takesReset; decide),
    fun h => absurd h.1 (by decide), fun h => absurd h.1 (by decide),
    fun h => absurd h (by unfold State.takesReset; exact by decide), _, rfl⟩

theorem witness_QuiescentUnlessBusy :
    (machine (operands 5 21) []).block.fsm ≠ .busy ∧ (machine (operands 5 21) []).inputs = []
    ∧ (machine (operands 5 21) [.microStep]).inputs = .microStep :: [] := by decide

theorem witness_StepsAlwaysComplete :
    step (machine (operands 5 21) [.host (.record 0x0000000000000001#64)])
      = .refused (.notATransaction 0x0000000000000001#64) := rfl

theorem witness_FinishMicroStep :
    finishing.inputs = .microStep :: [] ∧ finishing.block.fsm = .busy ∧ finishing.block.wa.toNat = 0
    ∧ (working 0 3 false).ComputesFrom 6 9 ∧ (working 0 3 false).wa.toNat = 0
    ∧ 1 < (working 0 3 false).wp.toNat :=
  ⟨by decide, by decide, by decide, ⟨by decide, by decide, by decide, by decide, by decide, by decide, by decide,
    by decide⟩, by decide, by decide⟩

/-- The smallest wa that is halved, and a wa that is halved three times (V-J21). -/
theorem witness_HalveMicroStep :
    (machine (working 2 11 false) [.microStep]).block.fsm = .busy
    ∧ (machine (working 2 11 false) [.microStep]).block.wa.toNat ≠ 0
    ∧ (machine (working 2 11 false) [.microStep]).block.wa.toNat % 2 = 0
    ∧ (working 8 21 false).fsm = .busy ∧ (working 8 21 false).wa.toNat ≠ 0
    ∧ 2 ^ 3 ∣ (working 8 21 false).wa.toNat := by decide

/-- V-E16, and wa = 1 (V-E13). -/
theorem witness_SwapMicroStep :
    (machine (working 7 11 true) [.microStep]).inputs = .microStep :: [] ∧ (working 7 11 true).fsm = .busy
    ∧ (working 7 11 true).wa.toNat % 2 = 1 ∧ (working 1 9907 true).wa.toNat = 1 := by decide

theorem witness_EngineFrame :
    finishing.inputs.head? = some .microStep ∧ (∃ t, step finishing = .next t)
    ∧ (machine (working 7 11 true) []).inputs = [] ∧ (∃ t, step (machine (working 7 11 true) []) = .next t)
    ∧ (working 7 11 true).wa.toNat ≠ 0 ∧ (working 6 7 true).wa.toNat % 2 = 0
    ∧ finishing.block.wa.toNat = 0 :=
  ⟨by decide, ⟨_, rfl⟩, by decide, ⟨_, rfl⟩, by decide, by decide, by decide⟩

theorem witness_EngineInvariant :
    ((∃ t, step starting = .next t ∧ t.block.fsm = .busy) ∧ starting.acceptsStart)
    ∧ (working 6 9 false).ComputesFrom 6 9
    ∧ (∃ t, step (machine (working 6 9 false) [.microStep]) = .next t ∧ t.block.fsm = .busy) :=
  ⟨⟨⟨_, rfl, by decide⟩, starting_accepts⟩, working_computes, _, rfl, by decide⟩

theorem witness_EveryStepKeepsLegal :
    (machine (working 5 21 false) [.microStep]).block.Legal
    ∧ ∃ t, step (machine (working 5 21 false) [.microStep]) = .next t := ⟨working_legal, _, rfl⟩

/-- The smallest and the widest computation. -/
theorem witness_StepBound :
    (operands 1 3).fsm ≠ .busy ∧ (operands 1 3).preconditionHolds
    ∧ (operands (2 ^ 64 - 2) (2 ^ 64 - 1)).preconditionHolds :=
  ⟨by decide, ⟨by decide, by decide, by decide⟩, ⟨by decide, by decide, by decide⟩⟩

theorem witness_EngineComputesJac :
    (operands 5 21).fsm ≠ .busy ∧ (operands 5 21).preconditionHolds ∧ (operands 5 21).aVal = 5
    ∧ (operands 5 21).nVal = 21 ∧ (8 : Nat) ≠ 0 ∧ 8 % 2 = 0 ∧ 5 % 2 = 1 :=
  ⟨by decide, starting_precondition, by decide, by decide, by decide, by decide, by decide⟩

theorem witness_JacZeroIffGcd : 3 % 2 = 1 ∧ 0 < 2 ∧ 2 < 3 ∧ 9 % 2 = 1 ∧ 0 < 3 ∧ 3 < 9 ∧ 1 < Nat.gcd 3 9 := by decide

theorem witness_JacIsJacobiSymbol : (3 % 2 = 1 ∧ 3 ≤ 3 ∧ 0 < 2 ∧ 2 < 3) ∧ Nat.Prime 3 :=
  ⟨by decide, Nat.prime_three⟩

theorem witness_JacMultiplicative :
    (9 % 2 = 1 ∧ 3 ≤ 9 ∧ 0 < 2 ∧ 2 < 9 ∧ 0 < 3 ∧ 3 < 9 ∧ (2 * 3) % 9 ≠ 0)
    ∧ ((3 * 3) % 9 = 0 ∧ (operands 0 9).fsm ≠ .busy ∧ (operands 0 9).aVal = (3 * 3) % 9
        ∧ (operands 0 9).nVal = 9) := by decide

theorem witness_ValueInvariant :
    ((∃ t, step starting = .next t ∧ t.block.fsm = .busy) ∧ starting.acceptsStart)
    ∧ (working 6 9 false).ComputesFrom 6 9
    ∧ (jacobiSym ((6 : Nat) : Int) 9
        = signOf (working 6 9 false).wt
          * jacobiSym ((working 6 9 false).wa.toNat : Int) (working 6 9 false).wp.toNat)
    ∧ (∃ t, step (machine (working 6 9 false) [.microStep]) = .next t ∧ t.block.fsm = .busy) := by
  refine ⟨⟨⟨_, rfl, by decide⟩, starting_accepts⟩, working_computes, ?_, _, rfl, by decide⟩
  have h : (working 6 9 false).wa.toNat = 6 ∧ (working 6 9 false).wp.toNat = 9 := by decide
  rw [h.1, h.2]
  exact (one_mul _).symm

/-- y = 121 is a multiple of p = 11 and y = 50 is not (P3); a = 2 for n = 209 (P4). -/
theorem witness_ClientContracts :
    Nat.Prime 11 ∧ 11 % 2 = 1 ∧ (operands 0 11).fsm ≠ .busy ∧ (operands 0 11).aVal = 121 % 11
    ∧ (operands 0 11).nVal = 11 ∧ 11 ∣ 121 ∧ (operands 6 11).aVal = 50 % 11 ∧ ¬ 11 ∣ 50
    ∧ 19 % 2 = 1 ∧ 2 ≤ 2 ∧ 2 < 11 * 19 ∧ (operands 2 209).aVal = 2 ∧ (operands 2 209).nVal = 11 * 19 := by
  refine ⟨by norm_num, by decide, by decide, by decide, by decide, by decide, by decide, by decide, by decide,
    by decide, by decide, by decide, by decide⟩

/-- Ten turns of the engine, the bound for N = 21, with a STATUS read between them. -/
def schedule : List Event :=
  [.microStep, .host (.record 0x0000000C00000000#64)] ++ List.replicate 9 .microStep

theorem witness_ComputationEndsUnderEverySchedule :
    let s := machine (operands 5 21) (startEvent :: schedule)
    s.acceptsStart ∧ (∃ t, step s = .next t ∧ t.block.fsm = .busy ∧ t.inputs = schedule ++ [])
    ∧ (∀ ev ∈ schedule, ev.spells = true ∧ ev ≠ .reset)
    ∧ 2 * bitlen s.block.nVal ≤ engineTurns schedule := by
  refine ⟨⟨by decide, by decide⟩, ⟨_, rfl, by decide, by decide⟩, by decide, by decide⟩

theorem witness_OperandWritesDoNotReachComputation :
    (machine (working 5 21 false) [.host (.record 0x8000010000000008#64)]).block.fsm = .busy
    ∧ ∃ t, step (machine (working 5 21 false) [.host (.record 0x8000010000000008#64)]) = .next t :=
  ⟨by decide, _, rfl⟩

theorem witness_WropPresentsOperand :
    2 ^ 61 - 1 < 2 ^ starting.cfg.width
    ∧ (let s := machine (operands 5 21) (scriptEvents 2 [.wrop .n (2 ^ 61 - 1)]);
        s.inputs = scriptEvents s.cfg.nw [.wrop .n (2 ^ 61 - 1)] ++ [])
    ∧ (let s := machine (operands 5 21) (scriptEvents 2 [.wropShort .a 9907 1]);
        s.inputs = scriptEvents s.cfg.nw [.wropShort .a 9907 1] ++ [] ∧ 9907 < 2 ^ s.cfg.width ∧ 1 ≤ s.cfg.nw
        ∧ ∀ i : Fin s.cfg.nw, 1 ≤ i.val → s.block.aWord[i] = wordOf 9907 i.val)
    ∧ (let s := machine (operands 5 21) (scriptEvents 2 [.wrop .a (2 ^ 64 - 1)]);
        s.inputs = scriptEvents s.cfg.nw [.wrop .a (2 ^ 64 - 1)] ++ [] ∧ 2 ^ 64 - 1 < 2 ^ s.cfg.width)
    ∧ (let s := machine (operands 5 21) (scriptEvents 2 [.wropShort .n 9907 1]);
        s.inputs = scriptEvents s.cfg.nw [.wropShort .n 9907 1] ++ []
        ∧ ∀ i : Fin s.cfg.nw, 1 ≤ i.val → s.block.nWord[i] = wordOf 9907 i.val) := by decide

/-- JACOBI 5, 21 with three turns of the engine between START and the one STATUS read. -/
theorem witness_JacobiScriptReturnsSymbol :
    let script := scriptEvents 2 [.jacobi 5 21 1]
    let evs := script.take 5 ++ [.microStep, .microStep, .microStep] ++ script.drop 5
    .reset ∉ evs ∧ hostInputs evs = (expand 2 (.jacobi 5 21 1)).map encode
    ∧ (Stmt.jacobi 5 21 1).wellFormed .twoWords = true ∧ (machine (operands 0 0) evs).block.fsm ≠ .busy := by decide

theorem witness_ResultStableUntilCommand :
    let s := machine (outcome .done 0#4 false 0xFFFFFFFF#32) [.host (.record 0x0000001000000000#64)]
    s.block.fsm = .done ∧ (∃ t, step s = .next t) ∧ ¬ s.acceptsStart ∧ ¬ s.acceptsClear ∧ ¬ s.takesReset :=
  ⟨by decide, ⟨_, rfl⟩, fun h => absurd h.1 (by decide), fun h => absurd h.1 (by decide),
    fun h => absurd h (by unfold State.takesReset; exact by decide)⟩

theorem witness_CycleBound :
    (operands 5 21).fsm ≠ .busy ∧ (operands 5 21).preconditionHolds ∧ ∀ j : Nat, 1 ≤ (fun _ => 2) j ∧ (fun _ => 2) j ≤ 3 :=
  ⟨by decide, starting_precondition, fun _ => ⟨Nat.le_succ 1, Nat.le_succ 2⟩⟩

theorem witness_ResetEvent : resetting.inputs = .reset :: [] := by decide

theorem witness_ResetAbandonsComputation :
    resetting.takesReset ∧ resetting.block.fsm = .busy ∧ (∃ t, step resetting = .next t)
    ∧ (let s' := machine (operands 5 21) [.reset];
        s'.cfg = resetting.cfg ∧ s'.inputs = resetting.inputs ∧ s'.returned = resetting.returned) :=
  ⟨resetting_takes, by decide, ⟨_, rfl⟩, by decide, by decide, by decide⟩

end Sys2Proof.Tests
end

section
/-! PROOFS. What each turn does to the block, by the six verdicts that R17, R18, R20 and R21 speak of: the
statements about the writers of a register are read off from `step_turn`. -/

namespace Sys2Proof.Machine

variable {nw : Nat}

/-- What a step is to the control part of the block: one of the four writers of R17 and R18, a command that
R70 rejects, or none of these. -/
inductive Turn where
  | reset | start | clear | rejected | engine | other

/-- The step from `s` is a turn of kind `k`: of the conditions that the claims name, only that of `k` holds. -/
structure State.Takes (s : State) (k : Turn) : Prop where
  reset_iff : s.takesReset ↔ k = .reset
  start_iff : s.acceptsStart ↔ k = .start
  clear_iff : s.acceptsClear ↔ k = .clear
  rejected_iff : s.rejectsCommand ↔ k = .rejected
  engine_iff : s.engineRuns ↔ k = .engine

/-- The state that a turn of each kind leads to. A turn of no special kind may write operand words or return
a word, and leaves the rest of the block as it was. -/
inductive TurnEffect (s : State) : Turn → State → Prop where
  | reset : TurnEffect s .reset { s with inputs := s.inputs.tail, block := Block.reset s.cfg.nw }
  | start : TurnEffect s .start { s with inputs := s.inputs.tail, block := doStart s.block }
  | clear : TurnEffect s .clear { s with inputs := s.inputs.tail, block := doClear s.block }
  | rejected : TurnEffect s .rejected { s with inputs := s.inputs.tail, block := reject s.block }
  | engine : s.block.fsm = .busy →
      TurnEffect s .engine { s with inputs := s.inputs.tail, block := engineTurn s.block }
  | other (x y : Vector Word s.cfg.nw) (r : List Word) : TurnEffect s .other
      { s with inputs := s.inputs.tail, block := { s.block with aWord := x, nWord := y }, returned := r }

/-- A command at the port is neither a reset nor a turn of the engine (R11, R41). -/
theorem not_reset_or_engine_of_command {s : State} {c : BitVec 4} (h : s.nextCommand = some c) :
    ¬ s.takesReset ∧ ¬ s.engineRuns := by
  unfold State.nextCommand at h
  unfold State.takesReset State.engineRuns
  rcases hin : s.inputs with _ | ⟨_ | _ | _, rest⟩ <;> simp [hin] at h ⊢

/-- A host entry is neither a reset nor a turn of the engine (R11, R41). -/
theorem not_reset_or_engine_of_host {s : State} {e : Encoded} (h : s.inputs.head? = some (.host e)) :
    ¬ s.takesReset ∧ ¬ s.engineRuns := by
  have hne : s.inputs ≠ [] := by rintro hnil; simp [hnil] at h
  simp [State.takesReset, State.engineRuns, h, hne]

/-- A host entry that carries no command is a turn of no special kind. -/
theorem takes_other_of_host {s : State} {e : Encoded} (hhost : s.inputs.head? = some (.host e))
    (hcmd : s.nextCommand = none) : s.Takes .other := by
  obtain ⟨hreset, hengine⟩ := not_reset_or_engine_of_host hhost
  obtain ⟨hstart, hclear, hreject⟩ := no_command hcmd
  constructor <;> simp [*]

/-- A reset entry is a turn of that kind. -/
theorem takes_reset {s : State} (hreset : s.takesReset) (hcmd : s.nextCommand = none) : s.Takes .reset := by
  have hengine : ¬ s.engineRuns := by
    have hne : s.inputs ≠ [] := by rintro hnil; simp [State.takesReset, hnil] at hreset
    have hhead : s.inputs.head? = some .reset := hreset
    simp [State.engineRuns, hhead, hne]
  obtain ⟨hstart, hclear, hreject⟩ := no_command hcmd
  constructor <;> simp [*]

/-- The engine's turn counts as one only in a BUSY block (R75, R105). -/
theorem takes_engine_or_other {s : State} (hturn : s.inputs = [] ∨ s.inputs.head? = some .microStep)
    (hcmd : s.nextCommand = none) :
    (s.block.fsm = .busy ∧ s.Takes .engine) ∨ (s.block.fsm ≠ .busy ∧ s.Takes .other) := by
  have hreset : ¬ s.takesReset := by
    obtain h | h := hturn <;> simp [State.takesReset, h]
  obtain ⟨hstart, hclear, hreject⟩ := no_command hcmd
  have hengine : s.engineRuns ↔ s.block.fsm = .busy := and_iff_left hturn.symm
  by_cases hbusy : s.block.fsm = .busy
  · exact .inl ⟨hbusy, by constructor <;> simp [*]⟩
  · exact .inr ⟨hbusy, by constructor <;> simp [*]⟩

/-- The kind of turn that a command word is, with its effect (R70). -/
theorem command_turn {s : State} {w : Word} (h : s.nextCommand = some (cmdOf w)) :
    ∃ k, s.Takes k ∧
      TurnEffect s k { s with inputs := s.inputs.tail, block := command w s.block } := by
  obtain ⟨hreset, hengine⟩ := not_reset_or_engine_of_command h
  obtain ⟨hstart, hclear, hreject⟩ := command_verdict h
  obtain ⟨hw, hc⟩ | ⟨hw, hc⟩ | ⟨hw, hb, hc⟩ | ⟨hw, hb, hc⟩ | ⟨hw, hb, hc⟩ | ⟨hw, hb, hc⟩ :=
    command_cases w s.block
  all_goals rw [hc]
  · exact ⟨.other, by constructor <;> simp [*], .other s.block.aWord s.block.nWord s.returned⟩
  · exact ⟨.rejected, by constructor <;> simp [*] <;> omega, .rejected⟩
  · exact ⟨.rejected, by constructor <;> simp [*], .rejected⟩
  · exact ⟨.rejected, by constructor <;> simp [*], .rejected⟩
  · exact ⟨.start, by constructor <;> simp [*], .start⟩
  · exact ⟨.clear, by constructor <;> simp [*], .clear⟩

/-- A write that is no command writes operand words at most (R66). -/
theorem writeEffect_operands (b : Block nw) {r : Reg nw} (data : Word) (hr : r ≠ .ctrl) :
    ∃ x y, writeEffect b r data = { b with aWord := x, nWord := y } := by
  obtain ⟨h, -⟩ | ⟨i, -, h⟩ | ⟨i, -, h⟩ | ⟨-, -, -, h⟩ := writeEffect_cases b r data
  · exact absurd h hr
  all_goals exact ⟨_, _, h⟩

/-- Every step is a turn of one kind and has the effect of that kind. -/
theorem step_turn {s t : State} (h : step s = .next t) : ∃ k, s.Takes k ∧ TurnEffect s k t := by
  obtain ⟨hturn, hcmd, rfl⟩ | ⟨hreset, hcmd, rfl⟩ | ⟨e, off, hhost, -, hcmd, rfl⟩
    | ⟨e, w, -, -, hcmd, rfl⟩ | ⟨e, off, data, hhost, -, hr, hcmd, rfl⟩ := step_cases h
  · obtain ⟨hbusy, htakes⟩ | ⟨hbusy, htakes⟩ := takes_engine_or_other hturn hcmd
    · exact ⟨.engine, htakes, .engine hbusy⟩
    · rw [engineTurn, if_neg hbusy]
      exact ⟨.other, htakes, .other s.block.aWord s.block.nWord s.returned⟩
  · exact ⟨.reset, takes_reset hreset hcmd, .reset⟩
  · exact ⟨.other, takes_other_of_host hhost hcmd, .other s.block.aWord s.block.nWord _⟩
  · exact command_turn hcmd
  · obtain ⟨x, y, hw⟩ := writeEffect_operands s.block data hr
    rw [hw]
    exact ⟨.other, takes_other_of_host hhost hcmd, .other x y s.returned⟩

end Sys2Proof.Machine
end

section
/-! PROOFS. What START and a turn of the engine write into each register of the control part, and the
statements about the writers of RESULT, fsm, ERRCODE and CMDERR (R17, R18, R20, R21). -/

namespace Sys2Proof.Machine

variable {nw : Nat}

/-! START, register by register (R72). -/

@[simp] theorem doStart_result (b : Block nw) : (doStart b).result = 0#32 := by
  obtain ⟨-, h⟩ | ⟨-, -, h⟩ | ⟨-, -, -, h⟩ | ⟨-, h⟩ := doStart_cases b <;> simp [h]

@[simp] theorem doStart_cmderr (b : Block nw) : (doStart b).cmderr = b.cmderr := by
  obtain ⟨-, h⟩ | ⟨-, -, h⟩ | ⟨-, -, -, h⟩ | ⟨-, h⟩ := doStart_cases b <;> simp [h]

theorem doStart_fsm_of_precondition {b : Block nw} (h : b.preconditionHolds) : (doStart b).fsm = .busy := by
  rw [doStart_of_precondition h]

theorem doStart_fsm_of_not_precondition {b : Block nw} (h : ¬ b.preconditionHolds) :
    (doStart b).fsm = .error := by
  obtain ⟨-, hs⟩ | ⟨-, -, hs⟩ | ⟨-, -, -, hs⟩ | ⟨hp, -⟩ := doStart_cases b
  · simp [hs]
  · simp [hs]
  · simp [hs]
  · exact absurd hp h

/-- The code of the first cause that applies, in the order of R72. -/
theorem doStart_errcode (b : Block nw) : (doStart b).errcode =
    if b.nVal % 2 = 0 then 1#4 else if b.aVal = 0 then 2#4 else if b.aVal ≥ b.nVal then 3#4 else 0#4 := by
  unfold doStart
  split_ifs <;> rfl

/-! A turn of the engine, register by register (R75). -/

@[simp] theorem engineTurn_errcode (b : Block nw) : (engineTurn b).errcode = b.errcode := by
  obtain ⟨-, h⟩ | ⟨-, -, h⟩ | ⟨-, -, -, h⟩ | ⟨-, -, h⟩ := engineTurn_cases b <;> simp [h]

@[simp] theorem engineTurn_cmderr (b : Block nw) : (engineTurn b).cmderr = b.cmderr := by
  obtain ⟨-, h⟩ | ⟨-, -, h⟩ | ⟨-, -, -, h⟩ | ⟨-, -, h⟩ := engineTurn_cases b <;> simp [h]

/-- A BUSY engine whose argument is 0 finishes (R75, R76). -/
theorem engineTurn_of_zero {b : Block nw} (hbusy : b.fsm = .busy) (hwa : b.wa.toNat = 0) :
    engineTurn b = finish b := by
  rw [engineTurn, if_pos hbusy, engineStep, if_pos hwa]

/-- HALVE and SWAP write neither RESULT nor fsm (R77, R78). -/
theorem engineTurn_of_ne_zero {b : Block nw} (hwa : b.wa.toNat ≠ 0) :
    (engineTurn b).result = b.result ∧ (engineTurn b).fsm = b.fsm := by
  obtain ⟨-, h⟩ | ⟨-, h0, -⟩ | ⟨-, -, -, h⟩ | ⟨-, -, h⟩ := engineTurn_cases b
  · simp [h]
  · exact absurd h0 hwa
  · simp [h]
  · simp [h]

/-- The RESULT word that FINISH writes, spelt out (R53, R76). -/
theorem finish_result_word (b : Block nw) : (finish b).result =
    if b.wp.toNat = 1 then (if b.wt then 0xFFFFFFFF#32 else 0x00000001#32) else 0x00000000#32 := by
  rw [finish_result]
  cases b.wt <;> rfl

/-! The writers of the control registers. -/

/-- Settles O21, by the kinds of turn. -/
theorem resultWriters : Obligations.ResultWriters := by
  refine ⟨fun s t h => ?_, fun _ _ hl => hl.result_value, rfl⟩
  obtain ⟨k, hk, he⟩ := step_turn h
  simp only [hk.start_iff, hk.clear_iff, hk.reset_iff, hk.engine_iff]
  cases he with
  | reset | start | clear | rejected | other => simp
  | engine hbusy =>
    by_cases hwa : s.block.wa.toNat = 0
    · simpa [hwa, engineTurn_of_zero hbusy hwa] using finish_result_word s.block
    · simp [hwa, engineTurn_of_ne_zero hwa]

/-- No read but that of STATUS shows the control state (R18). -/
theorem readValue_fsm (b : Block nw) (f : Fsm) {r : Reg nw} (hr : r ≠ .status) :
    readValue { b with fsm := f } r = readValue b r := by
  cases r with
  | status => exact absurd rfl hr
  | id | param | ctrl | result | aWord | nWord | unmapped => rfl

/-- Settles O22, by the kinds of turn. -/
theorem fsmTransitions : Obligations.FsmTransitions := by
  refine ⟨fun s t h hne => ?_, fun s t h => ?_, fun s off f hoff => ⟨_, rfl, ?_⟩, rfl⟩
  · obtain ⟨k, hk, he⟩ := step_turn h
    simp only [hk.start_iff, hk.clear_iff, hk.reset_iff, hk.engine_iff]
    cases he with
    | reset | clear => simp
    | rejected | other => exact absurd rfl hne
    | start =>
      by_cases hp : s.block.preconditionHolds
      · simp [hp, doStart_fsm_of_precondition]
      · simp [hp, doStart_fsm_of_not_precondition]
    | engine hbusy =>
      by_cases hwa : s.block.wa.toNat = 0
      · simp [hwa, engineTurn_of_zero hbusy hwa]
      · exact absurd (engineTurn_of_ne_zero hwa).2 hne
  · obtain ⟨k, hk, he⟩ := step_turn h
    simp only [hk.start_iff, hk.clear_iff, hk.reset_iff, hk.engine_iff]
    cases he with
    | reset | clear | rejected | other => simp
    | start => simpa using ⟨doStart_fsm_of_precondition, doStart_fsm_of_not_precondition⟩
    | engine hbusy =>
      by_cases hwa : s.block.wa.toNat = 0
      · simp [engineTurn_of_zero hbusy hwa]
      · simp [hwa]
  · simp only [exec, execRd, readValue_fsm s.block f hoff]

/-- Settles O23, by the kinds of turn. -/
theorem errcodeWriters : Obligations.ErrcodeWriters := by
  refine ⟨fun s t h => ?_, fun _ _ hl => ⟨hl.errcode_error, hl.errcode_zero⟩, rfl⟩
  obtain ⟨k, hk, he⟩ := step_turn h
  simp only [hk.start_iff, hk.clear_iff, hk.reset_iff]
  cases he with
  | reset | clear | rejected | engine | other => simp
  | start => simp [doStart_errcode]

/-- Settles O24, by the kinds of turn. -/
theorem cmderrIsSticky : Obligations.CmderrIsSticky := by
  refine ⟨fun s t h => ?_, rfl⟩
  obtain ⟨k, hk, he⟩ := step_turn h
  simp only [hk.rejected_iff, hk.clear_iff, hk.reset_iff]
  cases he with
  | rejected => exact ⟨fun _ => rfl, by simp⟩
  | reset | start | clear | engine | other => simp

end Sys2Proof.Machine
end

section
/-! PROOFS. The invariant of the block (R17, R20, R80): each operation leads to a legal block or keeps the
block legal, hence every step does. -/

namespace Sys2Proof.Machine

variable {nw : Nat} {b : Block nw}

/-- The block after reset is legal (R107). -/
theorem legal_reset (nw : Nat) : (Block.reset nw).Legal where
  result_value := .inr (.inl rfl)
  result_zero _ := rfl
  errcode_error h := by simp at h
  errcode_zero _ := rfl
  busy_odd h := by simp at h
  busy_lt h := by simp at h

/-- An accepted CLEAR leads to a legal block from any block (R73). -/
theorem legal_doClear (b : Block nw) : (doClear b).Legal where
  result_value := .inr (.inl rfl)
  result_zero _ := rfl
  errcode_error h := by simp at h
  errcode_zero _ := rfl
  busy_odd h := by simp at h
  busy_lt h := by simp at h

/-- A precondition fault with one of its three codes leads to a legal block if RESULT is 0 (R95). -/
theorem legal_raisePreconditionFault {code : BitVec 4} (hresult : b.result = 0#32)
    (hcode : code = 1#4 ∨ code = 2#4 ∨ code = 3#4) : (raisePreconditionFault code b).Legal where
  result_value := .inr (.inl hresult)
  result_zero _ := hresult
  errcode_error _ := hcode
  errcode_zero h := absurd rfl h
  busy_odd h := by simp at h
  busy_lt h := by simp at h

/-- An accepted START leads to a legal block from any block: to ERROR with a fault's code, or to BUSY with
the odd N above A (R72). -/
theorem legal_doStart (b : Block nw) : (doStart b).Legal := by
  obtain ⟨-, h⟩ | ⟨-, -, h⟩ | ⟨-, -, -, h⟩ | ⟨⟨hodd, -, hlt⟩, h⟩ := doStart_cases b
  all_goals rw [h]
  · exact legal_raisePreconditionFault rfl (.inl rfl)
  · exact legal_raisePreconditionFault rfl (.inr (.inl rfl))
  · exact legal_raisePreconditionFault rfl (.inr (.inr rfl))
  · exact {
      result_value := .inr (.inl rfl)
      result_zero := fun _ => rfl
      errcode_error := fun h => by simp at h
      errcode_zero := fun _ => rfl
      busy_odd := fun _ => hodd
      busy_lt := fun _ => hlt }

/-- FINISH leads a BUSY legal block to a legal block: RESULT becomes an encoding (R53, R76). -/
theorem Block.Legal.finish (hl : b.Legal) (hbusy : b.fsm = .busy) : (finish b).Legal where
  result_value := by
    rw [finish_result_word]
    split_ifs <;> simp
  result_zero h := absurd rfl h
  errcode_error h := by simp at h
  errcode_zero _ := hl.errcode_zero (by simp [hbusy])
  busy_odd h := by simp at h
  busy_lt h := by simp at h

/-- A block that stays BUSY and keeps RESULT and ERRCODE is legal if its modulus is odd and above its
argument (R80). -/
theorem Block.Legal.of_busy {b' : Block nw} (hl : b.Legal) (hbusy : b.fsm = .busy) (hfsm : b'.fsm = b.fsm)
    (hresult : b'.result = b.result) (herrcode : b'.errcode = b.errcode) (hodd : b'.wp.toNat % 2 = 1)
    (hlt : b'.wa.toNat < b'.wp.toNat) : b'.Legal where
  result_value := hresult ▸ hl.result_value
  result_zero := hresult ▸ hfsm ▸ hl.result_zero
  errcode_error h := by simp [hfsm, hbusy] at h
  errcode_zero := herrcode ▸ hfsm ▸ hl.errcode_zero
  busy_odd _ := hodd
  busy_lt _ := hlt

/-- A turn of the engine keeps the block legal: HALVE lowers the argument, SWAP makes the odd argument the
modulus and a remainder by it the argument (R75 to R78). -/
theorem Block.Legal.engineTurn (hl : b.Legal) : (engineTurn b).Legal := by
  obtain ⟨-, h⟩ | ⟨hbusy, -, h⟩ | ⟨hbusy, -, -, h⟩ | ⟨hbusy, hodd, h⟩ := engineTurn_cases b
  all_goals rw [h]
  · exact hl
  · exact hl.finish hbusy
  · have hle : (b.wa >>> 1).toNat ≤ b.wa.toNat := by
      rw [BitVec.toNat_ushiftRight]
      exact Nat.shiftRight_le _ _
    exact hl.of_busy hbusy rfl rfl rfl (hl.busy_odd hbusy) (hle.trans_lt (hl.busy_lt hbusy))
  · have hlt : (b.wp % b.wa).toNat < b.wa.toNat := by
      rw [BitVec.toNat_umod]
      exact Nat.mod_lt _ (by omega)
    exact hl.of_busy hbusy rfl rfl rfl hodd hlt

/-- Legality speaks of the control part only: CMDERR and the operand words are free. -/
theorem Block.Legal.with_cmderr_operands (hl : b.Legal) (c : Bool) (x y : Vector Word nw) :
    { b with cmderr := c, aWord := x, nWord := y }.Legal :=
  { hl with }

/-- Settles O43, by the kinds of turn. -/
theorem everyStepKeepsLegal : Obligations.EveryStepKeepsLegal := by
  intro s t hl h
  obtain ⟨k, -, he⟩ := step_turn h
  cases he with
  | reset => exact legal_reset _
  | start => exact legal_doStart _
  | clear => exact legal_doClear _
  | rejected => exact hl.with_cmderr_operands true s.block.aWord s.block.nWord
  | engine => exact hl.engineTurn
  | other x y => exact hl.with_cmderr_operands s.block.cmderr x y

end Sys2Proof.Machine
end

section
/-! PROOFS. The operand words (R14 to R16), the constants (R22, R23) and the STATUS word (R28). -/

namespace Sys2Proof.Machine

variable {nw : Nat}

/-! Operand values (R16). -/

theorem wordsValue_cons (w : Word) (ws : List Word) :
    wordsValue (w :: ws) = w.toNat + 2 ^ 32 * wordsValue ws := rfl

/-- The value of the words f(0), f(1), … is the sum of the words at their places (R16). -/
theorem wordsValue_ofFn (n : Nat) (f : Fin n → Word) :
    wordsValue (List.ofFn f) = ∑ i : Fin n, (f i).toNat * 2 ^ (32 * i.val) := by
  induction n with
  | zero => rfl
  | succ n ih =>
    have hplace (i : Nat) : 2 ^ (32 * (i + 1)) = 2 ^ 32 * 2 ^ (32 * i) := by
      rw [Nat.mul_succ, Nat.pow_add, Nat.mul_comm]
    simp only [List.ofFn_succ, wordsValue_cons, ih, Fin.sum_univ_succ, Finset.mul_sum, Fin.val_succ, hplace,
      Fin.val_zero, Nat.mul_zero, Nat.pow_zero, Nat.mul_one, Nat.mul_left_comm]

/-- An operand's value is the sum of its words at their places (R16). -/
theorem operandValue_eq_sum (ws : Vector Word nw) :
    operandValue ws = ∑ i : Fin nw, ws[i].toNat * 2 ^ (32 * i.val) := by
  have hlist : ws.toList = List.ofFn fun i : Fin nw => ws[i] := by
    apply List.ext_getElem <;> simp
  rw [operandValue, hlist, wordsValue_ofFn]

/-- Settles O12, by induction on the number of words. -/
theorem operandIsSumOfWords : Obligations.OperandIsSumOfWords := fun _ b =>
  ⟨operandValue_eq_sum b.aWord, operandValue_eq_sum b.nWord, operandValue_lt b.aWord, operandValue_lt b.nWord⟩

/-! Reads and writes of an operand word (R63, R64). -/

theorem exec_rd_aWord {s : State} {i : Fin s.cfg.nw} {d : Word} (hd : s.block.aWord[i] = d) :
    exec (.rd (targetOffset (.aWord i.val))) s = .next { s with returned := d :: s.returned } := by
  rw [exec, execRd, decodeOffset_aWord, readValue, hd]

theorem exec_rd_nWord {s : State} {i : Fin s.cfg.nw} {d : Word} (hd : s.block.nWord[i] = d) :
    exec (.rd (targetOffset (.nWord i.val))) s = .next { s with returned := d :: s.returned } := by
  rw [exec, execRd, decodeOffset_nWord, readValue, hd]

theorem exec_wr_aWord (s : State) (i : Fin s.cfg.nw) (data : Word) :
    exec (.wr (targetOffset (.aWord i.val)) data) s =
      .next { s with block := { s.block with aWord := s.block.aWord.set i.val data i.isLt } } := by
  rw [exec, execWr, decodeOffset_aWord, writeEffect]

theorem exec_wr_nWord (s : State) (i : Fin s.cfg.nw) (data : Word) :
    exec (.wr (targetOffset (.nWord i.val)) data) s =
      .next { s with block := { s.block with nWord := s.block.nWord.set i.val data i.isLt } } := by
  rw [exec, execWr, decodeOffset_nWord, writeEffect]

/-- Settles O16, by the rules for reads and writes of an operand word. -/
theorem operandWordReadsBack : Obligations.OperandWordReadsBack := by
  intro s i data
  have hself (ws : Vector Word s.cfg.nw) : (ws.set i.val data i.isLt)[i] = data :=
    Vector.getElem_set_self i.isLt
  have hother (ws : Vector Word s.cfg.nw) {j : Fin s.cfg.nw} (hji : j ≠ i) :
      (ws.set i.val data i.isLt)[j] = ws[j] :=
    Vector.getElem_set_ne i.isLt j.isLt (Fin.val_ne_of_ne hji.symm)
  refine ⟨⟨_, exec_wr_aWord s i data, ?_, fun j hji => ?_, fun j => ?_⟩,
    ⟨_, exec_wr_nWord s i data, ?_, fun j hji => ?_, fun j => ?_⟩⟩
  · apply exec_rd_aWord
    exact hself _
  · apply exec_rd_aWord
    exact hother _ hji
  · apply exec_rd_nWord
    rfl
  · apply exec_rd_nWord
    exact hself _
  · apply exec_rd_nWord
    exact hother _ hji
  · apply exec_rd_aWord
    rfl

/-! The constants (R22, R23). -/

theorem decodeOffset_eq_id {off : Offset} (h : effOf off = 0x000#12) : decodeOffset nw off = .id := by
  simp [decodeOffset, h]

theorem decodeOffset_eq_param {off : Offset} (h : effOf off = 0x004#12) : decodeOffset nw off = .param := by
  simp [decodeOffset, h]

/-- PARAM holds NW in its lower half and 0 in its upper half, for every legal NW (R23). -/
theorem param_fields (c : Config) : ((BitVec.ofNat 32 c.nw).extractLsb' 0 16).toNat = c.nw
    ∧ (BitVec.ofNat 32 c.nw).extractLsb' 16 16 = 0#16 := by
  have hnw : c.nw ≤ 64 := c.nw_le
  constructor
  · rw [BitVec.extractLsb'_toNat, BitVec.toNat_ofNat, Nat.shiftRight_zero]
    omega
  · apply BitVec.eq_of_toNat_eq
    rw [BitVec.extractLsb'_toNat, BitVec.toNat_ofNat, Nat.shiftRight_eq_div_pow, BitVec.toNat_ofNat]
    omega

/-- No step changes the width (R7, R23). -/
theorem step_cfg {s t : State} (h : step s = .next t) : t.cfg = s.cfg := by
  obtain ⟨k, -, he⟩ := step_turn h
  cases he with
  | reset | start | clear | rejected | engine | other => rfl

/-- Settles O18, by the decoding of the two offsets. -/
theorem idAndParamAreConstant : Obligations.IdAndParamAreConstant := by
  refine ⟨fun s off data h => ?_, fun s off data h => ?_, by decide, by decide, by decide, fun _ _ => step_cfg⟩
  · have hr : decodeOffset s.cfg.nw off = .id := decodeOffset_eq_id h
    simp only [exec, execRd, execWr, hr, readValue, writeEffect, Config.idValue, and_self]
  · have hr : decodeOffset s.cfg.nw off = .param := decodeOffset_eq_param h
    obtain ⟨hlow, hhigh⟩ := param_fields s.cfg
    simp only [exec, execRd, execWr, hr, readValue, writeEffect]
    exact ⟨_, rfl, hlow, hhigh, trivial⟩

/-! The STATUS word (R28). -/

/-- Every bit of STATUS: the four flags and above them ERRCODE with zeros (R28). -/
theorem statusWord_getLsbD (b : Block nw) (i : Nat) : b.statusWord.getLsbD i =
    match i with
    | 0 => b.busyFlag
    | 1 => b.doneFlag
    | 2 => b.errFlag
    | 3 => b.cmderr
    | i + 4 => b.errcode.getLsbD i := by
  unfold Block.statusWord
  rcases i with _ | _ | _ | _ | i
  all_goals simp only [BitVec.getLsbD_append, BitVec.getLsbD_ofBool, BitVec.getLsbD_zero]
  · simp
  · simp
  · simp
  · simp
  · simpa +contextual using BitVec.lt_of_getLsbD

theorem statusWord_busy_iff (b : Block nw) : b.statusWord.getLsbD 0 = true ↔ b.fsm = .busy := by
  rw [statusWord_getLsbD]
  exact beq_iff_eq

theorem statusWord_done_iff (b : Block nw) : b.statusWord.getLsbD 1 = true ↔ b.fsm = .done := by
  rw [statusWord_getLsbD]
  exact beq_iff_eq

theorem statusWord_err_iff (b : Block nw) : b.statusWord.getLsbD 2 = true ↔ b.fsm = .error := by
  rw [statusWord_getLsbD]
  exact beq_iff_eq

theorem statusWord_errcode (b : Block nw) : b.statusWord.extractLsb' 4 4 = b.errcode := by
  apply BitVec.eq_of_getLsbD_eq
  intro i hi
  simp [Nat.add_comm 4 i, statusWord_getLsbD, hi]

theorem statusWord_upper (b : Block nw) : b.statusWord.extractLsb' 8 24 = 0#24 := by
  apply BitVec.eq_of_getLsbD_eq
  intro i hi
  have hplace : 8 + i = 4 + i + 4 := by omega
  simp [hplace, statusWord_getLsbD]

/-- Bits 2 to 0 of STATUS show the control state, at most one of them set (R28). -/
theorem statusWord_flags (b : Block nw) : b.statusWord.extractLsb' 0 3 =
    match b.fsm with
    | .idle => 0b000#3
    | .busy => 0b001#3
    | .done => 0b010#3
    | .error => 0b100#3 := by
  apply BitVec.eq_of_getLsbD_eq
  intro i hi
  rw [BitVec.getLsbD_extractLsb', Nat.zero_add, statusWord_getLsbD]
  cases h : b.fsm <;> interval_cases i <;> simp [Block.busyFlag, Block.doneFlag, Block.errFlag, h]

/-- Settles O19, by the fields of the STATUS word. -/
theorem statusWordFormat : Obligations.StatusWordFormat := by
  refine ⟨fun s => ⟨s.block.statusWord, rfl, statusWord_busy_iff _, statusWord_done_iff _, statusWord_err_iff _,
    statusWord_getLsbD s.block 3, statusWord_errcode _, statusWord_upper _, ?_, ?_, fun hl => ?_⟩, rfl⟩
  · rw [statusWord_flags]
    cases s.block.fsm <;> simp
  · rw [statusWord_flags]
    cases s.block.fsm <;> simp
  · rw [statusWord_errcode]
    by_cases h : s.block.fsm = .error
    · rw [if_pos ((statusWord_err_iff _).mpr h)]
      exact hl.errcode_error h
    · rw [if_neg ((statusWord_err_iff _).not.mpr h)]
      exact hl.errcode_zero h

end Sys2Proof.Machine
end

section
/-! PROOFS. A step as a function of the block it finds: what the step does with every block is fixed by the
width and the inputs. Hence the two claims that a part of the block is not observed: the working registers
outside BUSY (R27, I5) and the operand words while BUSY (R113). -/

namespace Sys2Proof.Machine

variable {nw : Nat}

/-! What a step does, from its next input. -/

theorem step_of_engineTurn {s : State} (h : s.inputs = [] ∨ s.inputs.head? = some .microStep) :
    step s = .next { s with inputs := s.inputs.tail, block := engineTurn s.block } := by
  rcases hin : s.inputs with _ | ⟨_ | _ | _, rest⟩
  · simp only [step, hin, hostIdle, turnOfEngine, List.tail_nil]
  · simp [hin] at h
  · simp only [step, hin, turnOfEngine, List.tail_cons]
  · simp [hin] at h

theorem step_of_takesReset {s : State} (h : s.takesReset) :
    step s = .next { s with inputs := s.inputs.tail, block := Block.reset s.cfg.nw } := by
  obtain ⟨rest, hin⟩ := List.head?_eq_some_iff.mp h
  simp only [step, hin, turnOfReset, List.tail_cons]

theorem step_of_host {s : State} {e : Encoded} {i : Instr} (hhost : s.inputs.head? = some (.host e))
    (hdec : decode e = .ok i) : step s = exec i { s with inputs := s.inputs.tail } := by
  obtain ⟨rest, hin⟩ := List.head?_eq_some_iff.mp hhost
  simp only [step, hin, hdec, List.tail_cons]

/-- An input that writes `w` to CTRL does what the command `w` does, in either encoding (R46, R70). -/
theorem step_of_ctrlData {s : State} {e : Encoded} {w : Word} (hhost : s.inputs.head? = some (.host e))
    (hw : ctrlData s.cfg.nw e = some w) :
    step s = .next { s with inputs := s.inputs.tail, block := command w s.block } := by
  cases e with
  | command v =>
    obtain ⟨rest, hin⟩ := List.head?_eq_some_iff.mp hhost
    obtain rfl : v = w := Option.some.inj hw
    simp only [step_command hin, hin, List.tail_cons]
  | record r =>
    obtain ⟨off, hd⟩ | ⟨off, data, hd⟩ | hd := decodeRecord_cases r
    · simp [ctrlData, hd] at hw
    · have hdec : decode (.record r) = .ok (.wr off data) := hd
      by_cases hr : decodeOffset s.cfg.nw off = .ctrl
      · obtain rfl : data = w := by simpa [ctrlData, hd, hr] using hw
        simp only [step_of_host hhost hdec, exec, execWr, hr, writeEffect]
      · simp [ctrlData, hd, hr] at hw
    · simp [ctrlData, hd] at hw

/-- What a step that is no read does to the block, as a function of the block. -/
inductive BlockTurn : (Block nw → Block nw) → Prop where
  | engine : BlockTurn engineTurn
  | reset : BlockTurn fun _ => Block.reset nw
  | command (w : Word) : BlockTurn (command w)
  | write {r : Reg nw} (hr : r ≠ .ctrl) (data : Word) : BlockTurn fun b => writeEffect b r data

/-- Whatever block a step finds, it does the same thing with it: it reads a register, or it applies one
function to the block. -/
theorem step_read_or_turn {s t : State} (h : step s = .next t) :
    (∃ e off, s.inputs.head? = some (.host e) ∧ decode e = .ok (.rd off) ∧
      ∀ b, step { s with block := b } = .next { s with
        inputs := s.inputs.tail, block := b,
        returned := readValue b (decodeOffset s.cfg.nw off) :: s.returned })
    ∨ ∃ f, BlockTurn f ∧
      ∀ b, step { s with block := b } = .next { s with inputs := s.inputs.tail, block := f b } := by
  obtain ⟨hturn, -, -⟩ | ⟨hreset, -, -⟩ | ⟨e, off, hhost, hdec, -, -⟩ | ⟨e, w, hhost, hw, -, -⟩
    | ⟨e, off, data, hhost, hdec, hr, -, -⟩ := step_cases h
  · exact .inr ⟨_, .engine, fun b => step_of_engineTurn (s := { s with block := b }) hturn⟩
  · exact .inr ⟨_, .reset, fun b => step_of_takesReset (s := { s with block := b }) hreset⟩
  · exact .inl ⟨e, off, hhost, hdec, fun b => step_of_host (s := { s with block := b }) hhost hdec⟩
  · exact .inr ⟨_, .command w, fun b => step_of_ctrlData (s := { s with block := b }) hhost hw⟩
  · exact .inr ⟨_, .write hr data, fun b => step_of_host (s := { s with block := b }) hhost hdec⟩

/-- The state after a step, from what the step does with every block. -/
theorem eq_of_step_withBlock {s t : State} {f : Block s.cfg.nw → State} (h : step s = .next t)
    (hf : ∀ b, step { s with block := b } = .next (f b)) : t = f s.block :=
  Host.Outcome.next.inj (h.symm.trans (hf s.block))

/-- A command to a block that is not BUSY (R70). -/
theorem command_of_not_busy (w : Word) {b : Block nw} (hb : b.fsm ≠ .busy) : command w b =
    if w.toNat % 16 = 0 then b else if w.toNat % 16 = 1 then doStart b
    else if w.toNat % 16 = 2 then doClear b else reject b := by
  obtain ⟨hw, h⟩ | ⟨hw, h⟩ | ⟨-, hbusy, -⟩ | ⟨-, hbusy, -⟩ | ⟨hw, -, h⟩ | ⟨hw, -, h⟩ := command_cases w b
  · simp [h, hw]
  · rw [h, if_neg (by omega), if_neg (by omega), if_neg (by omega)]
  · exact absurd hbusy hb
  · exact absurd hbusy hb
  · simp [h, hw]
  · simp [h, hw]

/-- A command to a BUSY block: all but NOP are rejected (R70). -/
theorem command_of_busy (w : Word) {b : Block nw} (hb : b.fsm = .busy) : command w b =
    if w.toNat % 16 = 0 then b else reject b := by
  obtain ⟨hw, h⟩ | ⟨hw, h⟩ | ⟨hw, -, h⟩ | ⟨hw, -, h⟩ | ⟨-, hidle, -⟩ | ⟨-, hidle, -⟩ := command_cases w b
  · simp [h, hw]
  · rw [h, if_neg (by omega)]
  · simp [h, hw]
  · simp [h, hw]
  · exact absurd hb hidle
  · exact absurd hb hidle

/-! Other working registers (R24, R25). -/

/-- `b` with other values in wa, wp and wt. -/
def Block.withWorking (b : Block nw) (x y : BitVec (32 * nw)) (z : Bool) : Block nw :=
  { b with wa := x, wp := y, wt := z }

@[simp] theorem withWorking_fsm (b : Block nw) (x y : BitVec (32 * nw)) (z : Bool) :
    (b.withWorking x y z).fsm = b.fsm := rfl
@[simp] theorem withWorking_aVal (b : Block nw) (x y : BitVec (32 * nw)) (z : Bool) :
    (b.withWorking x y z).aVal = b.aVal := rfl
@[simp] theorem withWorking_nVal (b : Block nw) (x y : BitVec (32 * nw)) (z : Bool) :
    (b.withWorking x y z).nVal = b.nVal := rfl

/-- No read shows a working register (R27). -/
theorem readValue_withWorking (b : Block nw) (x y : BitVec (32 * nw)) (z : Bool) (r : Reg nw) :
    readValue (b.withWorking x y z) r = readValue b r := by
  cases r <;> rfl

/-- At `b`, the turn `f` answers alike whatever the working registers hold, and a computation that is on
after it has the same working registers. -/
def IgnoresWorking (f : Block nw → Block nw) (b : Block nw) : Prop :=
  ∀ (x y : BitVec (32 * nw)) (z : Bool), ∃ x' y' z',
    f (b.withWorking x y z) = (f b).withWorking x' y' z'
    ∧ ((f b).fsm = .busy → x' = (f b).wa ∧ y' = (f b).wp ∧ z' = (f b).wt)

/-- A turn that passes the working registers on and does not end in BUSY. -/
theorem ignoresWorking_of_commutes {f : Block nw → Block nw} {b : Block nw} (hb : (f b).fsm ≠ .busy)
    (hf : ∀ x y z, f (b.withWorking x y z) = (f b).withWorking x y z) : IgnoresWorking f b :=
  fun x y z => ⟨x, y, z, hf x y z, fun h => absurd h hb⟩

/-- A turn that ends in the same block whatever the working registers hold. -/
theorem ignoresWorking_of_same {f : Block nw → Block nw} {b : Block nw}
    (hf : ∀ x y z, f (b.withWorking x y z) = f b) : IgnoresWorking f b :=
  fun x y z => ⟨_, _, _, hf x y z, fun _ => ⟨rfl, rfl, rfl⟩⟩

/-- START loads the working registers or, at a fault, leaves them (R72, R95). -/
theorem doStart_ignoresWorking (b : Block nw) : IgnoresWorking doStart b := by
  by_cases hp : b.preconditionHolds
  · refine ignoresWorking_of_same fun x y z => ?_
    have hp' : (b.withWorking x y z).preconditionHolds := hp
    rw [doStart_of_precondition hp, doStart_of_precondition hp']
    rfl
  · refine ignoresWorking_of_commutes (by simp [doStart_fsm_of_not_precondition hp]) fun x y z => ?_
    unfold doStart
    rw [withWorking_nVal, withWorking_aVal]
    split_ifs with h1 h2 h3
    · rfl
    · rfl
    · rfl
    · exact absurd ⟨by omega, by omega, by omega⟩ hp

/-- No command to a block that is not BUSY depends on the working registers (R70 to R74). -/
theorem command_ignoresWorking (w : Word) {b : Block nw} (hb : b.fsm ≠ .busy) :
    IgnoresWorking (command w) b := by
  have hb' : ∀ x y z, (b.withWorking x y z).fsm ≠ .busy := fun _ _ _ => hb
  unfold IgnoresWorking
  simp only [command_of_not_busy w hb, command_of_not_busy w (hb' _ _ _)]
  split_ifs
  · exact ignoresWorking_of_commutes (f := id) hb fun _ _ _ => rfl
  · exact doStart_ignoresWorking b
  · exact ignoresWorking_of_commutes (f := doClear) (by simp) fun _ _ _ => rfl
  · exact ignoresWorking_of_commutes (f := reject) hb fun _ _ _ => rfl

/-- Outside BUSY no turn depends on the working registers (R27, I5). -/
theorem BlockTurn.ignoresWorking {f : Block nw → Block nw} (hf : BlockTurn f) {b : Block nw}
    (hb : b.fsm ≠ .busy) : IgnoresWorking f b := by
  cases hf with
  | engine =>
    have hstill : ∀ {b' : Block nw}, b'.fsm ≠ .busy → engineTurn b' = b' := fun h => if_neg h
    refine ignoresWorking_of_commutes (by rwa [hstill hb]) fun x y z => ?_
    rw [hstill hb, hstill (b' := b.withWorking x y z) hb]
  | reset => exact ignoresWorking_of_same fun _ _ _ => rfl
  | command w => exact command_ignoresWorking w hb
  | @write r hr data =>
    cases r with
    | ctrl => exact absurd rfl hr
    | id | param | status | result | aWord | nWord | unmapped =>
      exact ignoresWorking_of_commutes hb fun _ _ _ => rfl

/-- Settles O25, by what a step does with every block. -/
theorem idleWorkingRegistersUnobservable : Obligations.IdleWorkingRegistersUnobservable := by
  intro s t x y z hb h
  obtain ⟨e, off, -, -, hread⟩ | ⟨f, hf, hturn⟩ := step_read_or_turn h
  · obtain rfl := eq_of_step_withBlock h hread
    refine ⟨x, y, z, (hread (s.block.withWorking x y z)).trans ?_, fun h => absurd h hb⟩
    rw [readValue_withWorking]
    rfl
  · obtain rfl := eq_of_step_withBlock h hturn
    obtain ⟨x', y', z', hsame, hbusy⟩ := hf.ignoresWorking hb x y z
    refine ⟨x', y', z', (hturn (s.block.withWorking x y z)).trans ?_, hbusy⟩
    rw [hsame]
    rfl

/-! Other operand words (R14, R15). -/

/-- `b` with other operand words. -/
def Block.withOperands (b : Block nw) (x y : Vector Word nw) : Block nw := { b with aWord := x, nWord := y }

@[simp] theorem withOperands_fsm (b : Block nw) (x y : Vector Word nw) : (b.withOperands x y).fsm = b.fsm := rfl
@[simp] theorem withOperands_wa (b : Block nw) (x y : Vector Word nw) : (b.withOperands x y).wa = b.wa := rfl

/-- No read but that of an operand word shows one (R65). -/
theorem readValue_withOperands (b : Block nw) (x y : Vector Word nw) (r : Reg nw) :
    readValue (b.withOperands x y) r = readValue b r ∨ ∃ i, r = .aWord i ∨ r = .nWord i := by
  cases r with
  | aWord i => exact .inr ⟨i, .inl rfl⟩
  | nWord i => exact .inr ⟨i, .inr rfl⟩
  | id | param | ctrl | status | result | unmapped => exact .inl rfl

/-- The engine neither reads nor writes an operand word (R24, R75). -/
theorem engineTurn_withOperands (b : Block nw) (x y : Vector Word nw) :
    engineTurn (b.withOperands x y) = (engineTurn b).withOperands x y := by
  unfold engineTurn engineStep
  rw [withOperands_fsm, withOperands_wa]
  split_ifs <;> rfl

/-- While BUSY no turn carries the operand words to any other part of the block (R113). -/
theorem BlockTurn.withOperands {f : Block nw → Block nw} (hf : BlockTurn f) {b : Block nw}
    (hb : b.fsm = .busy) (x y : Vector Word nw) :
    ∃ x' y', f (b.withOperands x y) = (f b).withOperands x' y' := by
  cases hf with
  | engine => exact ⟨x, y, engineTurn_withOperands b x y⟩
  | reset => exact ⟨_, _, rfl⟩
  | command w =>
    refine ⟨x, y, ?_⟩
    rw [command_of_busy w hb, command_of_busy w (b := b.withOperands x y) hb]
    split_ifs <;> rfl
  | @write r hr data =>
    cases r with
    | ctrl => exact absurd rfl hr
    | aWord i => exact ⟨x.set i.val data i.isLt, y, rfl⟩
    | nWord i => exact ⟨x, y.set i.val data i.isLt, rfl⟩
    | id | param | status | result | unmapped => exact ⟨x, y, rfl⟩

/-- Settles O53, by what a step does with every block. -/
theorem operandWritesDoNotReachComputation : Obligations.OperandWritesDoNotReachComputation := by
  intro s t x y hb h
  obtain ⟨e, off, hhost, hdec, hread⟩ | ⟨f, hf, hturn⟩ := step_read_or_turn h
  · obtain rfl := eq_of_step_withBlock h hread
    refine ⟨x, y, _, hread (s.block.withOperands x y), ?_⟩
    obtain hsame | ⟨i, hi⟩ := readValue_withOperands s.block x y (decodeOffset s.cfg.nw off)
    · exact .inl (by rw [hsame])
    · obtain ⟨rest, hin⟩ := List.head?_eq_some_iff.mp hhost
      exact .inr ⟨e, off, rest, i, hin, hdec, hi⟩
  · obtain rfl := eq_of_step_withBlock h hturn
    obtain ⟨x', y', hsame⟩ := hf.withOperands hb x y
    refine ⟨x', y', s.returned, (hturn (s.block.withOperands x y)).trans ?_, .inl rfl⟩
    rw [hsame]
    rfl

end Sys2Proof.Machine
end

section
/-! PROOFS. The register window (R29 to R38): which register an offset selects, what a transaction does once
its register is known, and that every instruction completes. -/

namespace Sys2Proof.Machine

/-- A register's row of the map (R31): the values of eff that select it. -/
def Reg.HasRow {nw : Nat} (r : Reg nw) (eff : Nat) : Prop :=
  match r with
  | .id => eff = 0x000
  | .param => eff = 0x004
  | .ctrl => eff = 0x008
  | .status => eff = 0x00C
  | .result => eff = 0x010
  | .aWord i => eff = 0x100 + 4 * i.val
  | .nWord i => eff = 0x200 + 4 * i.val
  | .unmapped => (0x014 ≤ eff ∧ eff ≤ 0x0FC) ∨ (0x100 + 4 * nw ≤ eff ∧ eff ≤ 0x1FC)
      ∨ (0x200 + 4 * nw ≤ eff ∧ eff ≤ 0x2FC) ∨ 0x300 ≤ eff

/-- The register that decoding answers stands in the row of the offset (R32): eff is a multiple of 4, so no
offset falls between two rows. -/
theorem decodeOffset_hasRow (nw : Nat) (off : Offset) : (decodeOffset nw off).HasRow (effOf off).toNat := by
  have hmul : (effOf off).toNat % 4 = 0 := by
    rw [effOf_toNat]
    omega
  unfold decodeOffset
  dsimp only
  split_ifs <;> simp only [Reg.HasRow] <;> omega

/-- A register is answered at every offset of its row: with NW ≤ 64 the rows do not overlap (R31). -/
theorem decodeOffset_of_hasRow {c : Config} {off : Offset} {r : Reg c.nw} (h : r.HasRow (effOf off).toNat) :
    decodeOffset c.nw off = r := by
  have hnw : c.nw ≤ 64 := c.nw_le
  unfold decodeOffset
  cases r with
  | id | param | ctrl | status | result =>
    simp only [Reg.HasRow] at h
    simp [h]
  | aWord i =>
    have hi : i.val < c.nw := i.isLt
    simp only [Reg.HasRow] at h
    simp only [h]
    rw [if_neg (by omega), if_neg (by omega), if_neg (by omega), if_neg (by omega), if_neg (by omega),
      dif_pos (by omega)]
    simp
  | nWord i =>
    have hi : i.val < c.nw := i.isLt
    simp only [Reg.HasRow] at h
    simp only [h]
    rw [if_neg (by omega), if_neg (by omega), if_neg (by omega), if_neg (by omega), if_neg (by omega),
      dif_neg (by omega), dif_pos (by omega)]
    simp
  | unmapped =>
    simp only [Reg.HasRow] at h
    dsimp only
    rw [if_neg (by omega), if_neg (by omega), if_neg (by omega), if_neg (by omega), if_neg (by omega),
      dif_neg (by omega), dif_neg (by omega)]

/-- Decoding answers a register exactly at the offsets of its row (R31, R32). -/
theorem decodeOffset_eq_iff (c : Config) (off : Offset) (r : Reg c.nw) :
    decodeOffset c.nw off = r ↔ r.HasRow (effOf off).toNat :=
  ⟨fun h => h ▸ decodeOffset_hasRow c.nw off, decodeOffset_of_hasRow⟩

/-- Settles O9, row by row. -/
theorem registerMap : Obligations.RegisterMap := fun c off =>
  have hrow := decodeOffset_eq_iff c off
  ⟨hrow .id, hrow .param, hrow .ctrl, hrow .status, hrow .result, fun i => hrow (.aWord i),
    fun i => hrow (.nWord i), hrow .unmapped⟩

/-! A transaction on a known register (R63, R64). -/

theorem exec_rd_of_decodeOffset {s : State} {off : Offset} {r : Reg s.cfg.nw}
    (hr : decodeOffset s.cfg.nw off = r) :
    exec (.rd off) s = .next { s with returned := readValue s.block r :: s.returned } := by
  rw [exec, execRd, hr]

theorem exec_wr_of_decodeOffset {s : State} {off : Offset} {r : Reg s.cfg.nw} (data : Word)
    (hr : decodeOffset s.cfg.nw off = r) :
    exec (.wr off data) s = .next { s with block := writeEffect s.block r data } := by
  rw [exec, execWr, hr]

/-- Settles O11, by the register that the offset selects. -/
theorem unmappedAndWrongDirection : Obligations.UnmappedAndWrongDirection := by
  intro s off data
  have hdecode (r : Reg s.cfg.nw) : r.HasRow (off &&& 0xFFC#12).toNat → decodeOffset s.cfg.nw off = r :=
    decodeOffset_of_hasRow
  constructor
  · rintro (hunmapped | hctrl)
    · exact exec_rd_of_decodeOffset (hdecode .unmapped hunmapped)
    · exact exec_rd_of_decodeOffset (hdecode .ctrl hctrl)
  · rintro (hunmapped | hid | hparam | hstatus | hresult)
    · exact exec_wr_of_decodeOffset data (hdecode .unmapped hunmapped)
    · exact exec_wr_of_decodeOffset data (hdecode .id hid)
    · exact exec_wr_of_decodeOffset data (hdecode .param hparam)
    · exact exec_wr_of_decodeOffset data (hdecode .status hstatus)
    · exact exec_wr_of_decodeOffset data (hdecode .result hresult)

/-- Every instruction answers a next state in every state (R34, R36, R89). -/
theorem exec_completes (i : Instr) (s : State) : ∃ t, exec i s = .next t := by
  cases i with
  | rd | wr | nop | start | clear => exact ⟨_, rfl⟩

/-- Settles O10, by the decoding of the offset without its ignored bits. -/
theorem everyOffsetAccepted : Obligations.EveryOffsetAccepted := fun s off data =>
  have hsame : decodeOffset s.cfg.nw off = decodeOffset s.cfg.nw (off &&& 0xFFC#12) :=
    (decodeOffset_effOf off).symm
  ⟨exec_rd_of_decodeOffset hsame, exec_wr_of_decodeOffset data hsame, exec_completes _ s, exec_completes _ s⟩

end Sys2Proof.Machine
end

section
/-! PROOFS. The order of transactions (R36, R40, R42): a step runs the instruction that its input spells, and
completes if it spells one; the outcome of a computation stands until the next accepted command. -/

namespace Sys2Proof.Machine

/-- A row of the opcode table decodes as the bits of its level do (R46). -/
theorem decodeTableWord_eq_some {nbits w : Nat} {i : Instr} (h : decodeTableWord nbits w = some i) :
    decode (encodedOf nbits w) = .ok i := by
  unfold decodeTableWord at h
  cases hdec : decode (encodedOf nbits w) with
  | ok j =>
    rw [hdec] at h
    exact congrArg Except.ok (Option.some.inj h)
  | error =>
    rw [hdec] at h
    cases h

/-- Settles O6, by the rule for a host's entry. -/
theorem stepRunsDecodedInstruction : Obligations.StepRunsDecodedInstruction := by
  refine ⟨fun s e rest i hin hdec => ?_, fun s nbits w i hrow => ?_⟩
  · rw [step_of_host (by rw [hin, List.head?_cons]) hdec, hin, List.tail_cons]
  · exact step_of_host rfl (decodeTableWord_eq_some hrow)

/-- A step on an input that spells something answers a next state (R40, R48). -/
theorem step_completes_of_spells {s : State} {ev : Event} {rest : List Event} (hin : s.inputs = ev :: rest)
    (hspells : ev.spells = true) : ∃ t, step s = .next t := by
  have hhead : s.inputs.head? = some ev := by rw [hin, List.head?_cons]
  cases ev with
  | microStep => exact ⟨_, step_of_engineTurn (.inr hhead)⟩
  | reset => exact ⟨_, step_of_takesReset hhead⟩
  | host e =>
    cases e with
    | command w => exact ⟨_, step_command hin⟩
    | record r =>
      cases hdec : decodeRecord r with
      | ok i =>
        rw [step_of_host hhead hdec]
        exact exec_completes i _
      | error => simp [Event.spells, hdec, Except.toOption] at hspells

/-- Settles O56, by the kinds of turn: what is left writes CMDERR, operand words or nothing. -/
theorem resultStableUntilCommand : Obligations.ResultStableUntilCommand := by
  intro s t hended h hstart hclear hreset
  obtain ⟨k, hk, he⟩ := step_turn h
  cases he with
  | reset => exact absurd (hk.reset_iff.mpr rfl) hreset
  | start => exact absurd (hk.start_iff.mpr rfl) hstart
  | clear => exact absurd (hk.clear_iff.mpr rfl) hclear
  | engine hbusy => simp [hbusy] at hended
  | rejected | other => exact ⟨rfl, rfl, rfl⟩

end Sys2Proof.Machine
end

section
/-! PROOFS. The engine's progress (R75 to R82): each of its turns writes the symbol that is left to compute,
or passes the symbol on and lowers a bound on the turns to come. Hence a computation ends under every
schedule. -/

namespace Sys2Proof.Machine

variable {nw : Nat}

/-! The recursion of R79. -/

theorem go_zero (p : Nat) (s : Int) : go 0 p s = if p = 1 then s else 0 := by
  rw [go, goWithin_succ, if_pos rfl]

theorem go_of_even {a : Nat} (p : Nat) (s : Int) (ha : a ≠ 0) (heven : a % 2 = 0) :
    go a p s = go (a / 2) p (if halveFlips p then -s else s) := by
  rw [go, goWithin_succ, if_neg ha, if_pos heven, go]
  exact goWithin_enough _ _ (by omega) (by omega)

theorem go_of_odd {a : Nat} (p : Nat) (s : Int) (hodd : a % 2 = 1) :
    go a p s = go (p % a) a (if swapFlips a p then -s else s) := by
  have hlt : p % a < a := Nat.mod_lt _ (by omega)
  rw [go, goWithin_succ, if_neg (by omega), if_neg (by omega), go]
  exact goWithin_enough _ _ (by omega) (by omega)

/-- Flipping wt is negating the sign it stands for (R25). -/
theorem signOf_xor (wt flip : Bool) : signOf (wt ^^ flip) = if flip then -signOf wt else signOf wt := by
  cases wt <;> cases flip <;> rfl

/-! The symbol that is left to compute. -/

/-- The symbol that the engine's recursion gives from the working registers (R79). -/
def Block.symbol (b : Block nw) : Int := go b.wa.toNat b.wp.toNat (signOf b.wt)

/-- FINISH writes the symbol to RESULT (R76). -/
theorem finish_result_eq_enc_symbol {b : Block nw} (hwa : b.wa.toNat = 0) :
    (finish b).result = enc b.symbol := by
  rw [finish_result, Block.symbol, hwa, go_zero]
  split_ifs <;> rfl

theorem halve_wa_toNat (b : Block nw) : (halve b).wa.toNat = b.wa.toNat / 2 := by
  rw [halve_wa, BitVec.toNat_ushiftRight, Nat.shiftRight_one]

theorem swap_wa_toNat (b : Block nw) : (swap b).wa.toNat = b.wp.toNat % b.wa.toNat := by
  rw [swap_wa, BitVec.toNat_umod]

/-- HALVE follows the even call of R79. -/
theorem halve_symbol {b : Block nw} (hwa : b.wa.toNat ≠ 0) (heven : b.wa.toNat % 2 = 0) :
    (halve b).symbol = b.symbol := by
  rw [Block.symbol, halve_wa_toNat, halve_wp, halve_wt, signOf_xor, Block.symbol, go_of_even _ _ hwa heven]

/-- SWAP follows the odd call of R79. -/
theorem swap_symbol {b : Block nw} (hodd : b.wa.toNat % 2 = 1) : (swap b).symbol = b.symbol := by
  rw [Block.symbol, swap_wa_toNat, swap_wp, swap_wt, signOf_xor, Block.symbol, go_of_odd _ _ hodd]

/-! The turns that are left (R82). -/

theorem bitlen_le_iff (n k : Nat) : bitlen n ≤ k ↔ n < 2 ^ k := by
  unfold bitlen
  split_ifs with h
  · simp [h]
  · rw [Nat.succ_le_iff, Nat.log2_lt h]

theorem lt_two_pow_bitlen (n : Nat) : n < 2 ^ bitlen n := (bitlen_le_iff n _).mp le_rfl

theorem bitlen_pos {n : Nat} (h : 0 < n) : 0 < bitlen n := by
  rw [bitlen, if_neg h.ne']
  exact Nat.succ_pos _

theorem bitlen_le_bitlen {m n : Nat} (h : m ≤ n) : bitlen m ≤ bitlen n :=
  (bitlen_le_iff m _).mpr (h.trans_lt (lt_two_pow_bitlen n))

/-- At most half of a number has fewer bits. -/
theorem bitlen_lt_of_two_mul_le {m n : Nat} (hn : 0 < n) (h : 2 * m ≤ n) : bitlen m < bitlen n := by
  obtain ⟨k, hk⟩ := Nat.exists_eq_add_one.mpr (bitlen_pos hn)
  have hlt : n < 2 ^ (k + 1) := hk ▸ lt_two_pow_bitlen n
  have hm : m < 2 ^ k := by
    rw [Nat.pow_succ] at hlt
    omega
  rw [hk]
  exact Nat.lt_succ_of_le ((bitlen_le_iff m k).mpr hm)

/-- A remainder by a smaller number is at most half. -/
theorem two_mul_mod_le {a p : Nat} (ha : 0 < a) (h : a ≤ p) : 2 * (p % a) ≤ p := by
  have hlt : p % a < a := Nat.mod_lt _ ha
  have hle : p % a ≤ p - a := by
    rw [Nat.mod_eq_sub_mod h]
    exact Nat.mod_le _ _
  omega

/-- A bound on the turns that a BUSY engine still needs: the bits of its argument and its modulus. -/
def Block.turnBound (b : Block nw) : Nat := bitlen b.wa.toNat + bitlen b.wp.toNat

theorem halve_turnBound_lt {b : Block nw} (hwa : b.wa.toNat ≠ 0) : (halve b).turnBound < b.turnBound := by
  have hbits : bitlen (b.wa.toNat / 2) < bitlen b.wa.toNat := bitlen_lt_of_two_mul_le (by omega) (by omega)
  rw [Block.turnBound, halve_wa_toNat, halve_wp, Block.turnBound]
  omega

theorem swap_turnBound_lt {b : Block nw} (hwa : 0 < b.wa.toNat) (hlt : b.wa.toNat < b.wp.toNat) :
    (swap b).turnBound < b.turnBound := by
  have hbits : bitlen (b.wp.toNat % b.wa.toNat) < bitlen b.wp.toNat :=
    bitlen_lt_of_two_mul_le (by omega) (two_mul_mod_le hwa hlt.le)
  rw [Block.turnBound, swap_wa_toNat, swap_wp, Block.turnBound]
  omega

/-- A BUSY engine still needs a turn. -/
theorem Block.Legal.turnBound_pos {b : Block nw} (hl : b.Legal) (hbusy : b.fsm = .busy) :
    0 < b.turnBound := by
  have hwp : 0 < b.wp.toNat := (Nat.zero_le _).trans_lt (hl.busy_lt hbusy)
  exact Nat.add_pos_right _ (bitlen_pos hwp)

/-- A turn of a BUSY engine ends the computation with its symbol, or passes the symbol on with fewer turns
left. -/
theorem engineTurn_progress {b : Block nw} (hl : b.Legal) (hbusy : b.fsm = .busy) :
    ((engineTurn b).fsm = .done ∧ (engineTurn b).result = enc b.symbol)
    ∨ ((engineTurn b).fsm = .busy ∧ (engineTurn b).symbol = b.symbol
        ∧ (engineTurn b).turnBound < b.turnBound) := by
  obtain ⟨hidle, -⟩ | ⟨-, hwa, h⟩ | ⟨-, hwa, heven, h⟩ | ⟨-, hodd, h⟩ := engineTurn_cases b
  · exact absurd hbusy hidle
  · rw [h]
    exact .inl ⟨finish_fsm b, finish_result_eq_enc_symbol hwa⟩
  · rw [h]
    exact .inr ⟨hbusy, halve_symbol hwa heven, halve_turnBound_lt hwa⟩
  · rw [h]
    exact .inr ⟨hbusy, swap_symbol hodd, swap_turnBound_lt (by omega) (hl.busy_lt hbusy)⟩

/-! An accepted START whose operands satisfy the precondition (R72). -/

theorem doStart_symbol {b : Block nw} (h : b.preconditionHolds) : (doStart b).symbol = jac b.aVal b.nVal := by
  rw [doStart_of_precondition h]
  rfl

theorem doStart_turnBound_le {b : Block nw} (h : b.preconditionHolds) :
    (doStart b).turnBound ≤ 2 * bitlen b.nVal := by
  have ⟨_, _, hlt⟩ := h
  have hbits : bitlen b.aVal ≤ bitlen b.nVal := bitlen_le_bitlen hlt.le
  have hbound : (doStart b).turnBound = bitlen b.aVal + bitlen b.nVal := by
    rw [doStart_of_precondition h]
    rfl
  omega

/-! A computation among other turns (R41, R69). -/

/-- While BUSY, a host's transaction completes and writes operand words and CMDERR at most (R70, R113). -/
theorem step_host_of_busy {s : State} {e : Encoded} {rest : List Event} (hin : s.inputs = .host e :: rest)
    (hspells : (Event.host e).spells = true) (hbusy : s.block.fsm = .busy) :
    ∃ (c : Bool) (x y : Vector Word s.cfg.nw) (r : List Word), step s = .next { s with
      inputs := rest, block := { s.block with cmderr := c, aWord := x, nWord := y }, returned := r } := by
  have htail : rest = s.inputs.tail := by rw [hin, List.tail_cons]
  have hhead : s.inputs.head? = some (.host e) := by rw [hin, List.head?_cons]
  obtain ⟨hreset, hengine⟩ := not_reset_or_engine_of_host hhead
  obtain ⟨t, h⟩ := step_completes_of_spells hin hspells
  obtain ⟨k, hk, he⟩ := step_turn h
  rw [h, htail]
  cases he with
  | reset => exact absurd (hk.reset_iff.mpr rfl) hreset
  | start => exact absurd hbusy (hk.start_iff.mpr rfl).2
  | clear => exact absurd hbusy (hk.clear_iff.mpr rfl).2
  | engine => exact absurd (hk.engine_iff.mpr rfl) hengine
  | rejected => exact ⟨true, s.block.aWord, s.block.nWord, s.returned, rfl⟩
  | other x y r => exact ⟨s.block.cmderr, x, y, r, rfl⟩

/-- A step before a run. -/
theorem run_succ {s t : State} (h : step s = .next t) (k : Nat) : run (k + 1) s = run k t := by
  rw [run, h]

/-- A BUSY block whose engine gets the turns it still needs reaches DONE with its symbol in RESULT, whatever
the host does in between. -/
theorem computation_ends {s : State} {evs rest : List Event} (hl : s.block.Legal) (hbusy : s.block.fsm = .busy)
    (hin : s.inputs = evs ++ rest) (hevs : ∀ ev ∈ evs, ev.spells = true ∧ ev ≠ .reset)
    (hturns : s.block.turnBound ≤ engineTurns evs) :
    ∃ m u, m ≤ evs.length ∧ run m s = .next u ∧ u.block.fsm = .done
      ∧ u.block.result = enc s.block.symbol := by
  induction evs generalizing s with
  | nil => exact absurd (hl.turnBound_pos hbusy) (Nat.not_lt.mpr hturns)
  | cons ev evs ih =>
    obtain ⟨⟨hspells, hne⟩, hrest⟩ := List.forall_mem_cons.mp hevs
    cases ev with
    | reset => exact absurd rfl hne
    | host e =>
      obtain ⟨c, x, y, r, h⟩ := step_host_of_busy hin hspells hbusy
      have hsame : engineTurns (.host e :: evs) = engineTurns evs := List.count_cons_of_ne (by simp)
      obtain ⟨m, u, hm, hrun, hu⟩ := ih (s := { s with
        inputs := evs ++ rest, block := { s.block with cmderr := c, aWord := x, nWord := y }, returned := r })
        (hl.with_cmderr_operands c x y) hbusy rfl hrest (hsame ▸ hturns)
      exact ⟨m + 1, u, Nat.succ_le_succ hm, (run_succ h m).trans hrun, hu⟩
    | microStep =>
      have h := step_of_engineTurn (s := s) (.inr (by rw [hin]; rfl))
      have hmore : engineTurns (.microStep :: evs) = engineTurns evs + 1 := List.count_cons_self
      obtain ⟨hdone, hresult⟩ | ⟨hstill, hsymbol, hless⟩ := engineTurn_progress hl hbusy
      · exact ⟨1, _, by simp, (run_succ h 0).trans rfl, hdone, hresult⟩
      · have hleft : (engineTurn s.block).turnBound ≤ engineTurns evs := by omega
        obtain ⟨m, u, hm, hrun, hu⟩ := ih (s := { s with
          inputs := s.inputs.tail, block := engineTurn s.block })
          hl.engineTurn hstill (by rw [hin]; rfl) hrest hleft
        exact ⟨m + 1, u, Nat.succ_le_succ hm, (run_succ h m).trans hrun, hsymbol ▸ hu⟩

/-- Settles O52, by induction on the schedule. -/
theorem computationEndsUnderEverySchedule : Obligations.ComputationEndsUnderEverySchedule := by
  intro s t evs rest h hstart hbusy hin hevs hturns
  obtain ⟨k, hk, he⟩ := step_turn h
  obtain rfl := hk.start_iff.mp hstart
  cases he
  have hp : s.block.preconditionHolds := by
    by_contra hp
    simp [doStart_fsm_of_not_precondition hp] at hbusy
  rw [← doStart_symbol hp]
  exact computation_ends (legal_doStart s.block) hbusy hin hevs ((doStart_turnBound_le hp).trans hturns)

end Sys2Proof.Machine
end

section
/-! PROOFS. The encodings (R46 to R50): the fields of a record or a command word determine it, decoding reads
exactly the encodings of the encoder, and a command is the WR to CTRL that carries it. -/

namespace Sys2Proof.Machine

/-! Decoding reads an encoding back (R46). -/

/-- A record without must-be-zero bits set and with bit 63 clear is read as RD (R48). -/
theorem decodeRecord_eq_rd_iff (r : BitVec 64) (off : Offset) : decodeRecord r = .ok (.rd off) ↔
    r.getLsbD 63 = false ∧ r.extractLsb' 44 19 = 0#19 ∧ r.extractLsb' 32 12 = off ∧ r.extractLsb' 0 32 = 0#32 := by
  unfold decodeRecord
  split_ifs <;> simp_all [-BitVec.getLsbD_eq_getElem]

/-- A record without must-be-zero bits set and with bit 63 set is read as WR (R48). -/
theorem decodeRecord_eq_wr_iff (r : BitVec 64) (off : Offset) (data : Word) :
    decodeRecord r = .ok (.wr off data) ↔
    r.getLsbD 63 = true ∧ r.extractLsb' 44 19 = 0#19 ∧ r.extractLsb' 32 12 = off ∧ r.extractLsb' 0 32 = data := by
  unfold decodeRecord
  split_ifs <;> simp_all [-BitVec.getLsbD_eq_getElem]

/-- A record with a must-be-zero bit set is refused (R48). -/
theorem decodeRecord_of_not_mustBeZero {r : BitVec 64}
    (h : r.extractLsb' 44 19 ≠ 0#19 ∨ (r.getLsbD 63 = false ∧ r.extractLsb' 0 32 ≠ 0#32)) :
    decodeRecord r = .error (.mustBeZero r) := by
  unfold decodeRecord
  obtain hzero | ⟨hdir, hdata⟩ := h
  · rw [if_neg hzero]
  · rw [hdir, if_neg Bool.false_ne_true, if_neg hdata, ite_self]

/-- Every instruction is read back from its own encoding, operands and ignored bits included (R48, R49). -/
theorem decode_encode (i : Instr) : decode (encode i) = .ok i := by
  cases i with
  | rd off =>
    exact (decodeRecord_eq_rd_iff _ _).mpr
      ⟨rdRecord_dir off, rdRecord_zero off, rdRecord_off off, rdRecord_data off⟩
  | wr off data =>
    exact (decodeRecord_eq_wr_iff _ _ _).mpr
      ⟨wrRecord_dir off data, wrRecord_zero off data, wrRecord_off off data, wrRecord_data off data⟩
  | nop rsv | start rsv | clear rsv =>
    simp [encode, decode, decodeCommand, commandWord_cmd, commandWord_rsv]

/-- Settles O3, row by row. -/
theorem decodeOfEncode : Obligations.DecodeOfEncode := decode_encode

/-- Settles O1, by the fields of the record. -/
theorem traceRecordFormat : Obligations.TraceRecordFormat :=
  ⟨decodeRecord_eq_rd_iff, decodeRecord_eq_wr_iff, fun _ => decodeRecord_of_not_mustBeZero,
    by decide, by decide, by decide⟩

/-- Settles O5, by evaluation of the decoder. -/
theorem knownWordsDecode : Obligations.KnownWordsDecode := by
  unfold Obligations.KnownWordsDecode
  decide

/-! What is read is an encoding (R46). -/

/-- A field that two words share gives them the same bits. -/
theorem getLsbD_eq_of_extractLsb'_eq {w start len i : Nat} {x y : BitVec w}
    (h : x.extractLsb' start len = y.extractLsb' start len) (hstart : start ≤ i) (hend : i < start + len) :
    x.getLsbD i = y.getLsbD i := by
  have hbit := congrArg (fun f => f.getLsbD (i - start)) h
  simpa [BitVec.getLsbD_extractLsb', show i - start < len by omega, Nat.add_sub_cancel' hstart] using hbit

/-- The four fields of R48 are all the bits of a record. -/
theorem record_ext {r r' : BitVec 64} (hdir : r.getLsbD 63 = r'.getLsbD 63)
    (hzero : r.extractLsb' 44 19 = r'.extractLsb' 44 19) (hoff : r.extractLsb' 32 12 = r'.extractLsb' 32 12)
    (hdata : r.extractLsb' 0 32 = r'.extractLsb' 0 32) : r = r' := by
  apply BitVec.eq_of_getLsbD_eq
  intro i hi
  obtain h | h | h | rfl : i < 32 ∨ (32 ≤ i ∧ i < 44) ∨ (44 ≤ i ∧ i < 63) ∨ i = 63 := by omega
  · exact getLsbD_eq_of_extractLsb'_eq hdata (Nat.zero_le i) (by omega)
  · exact getLsbD_eq_of_extractLsb'_eq hoff h.1 h.2
  · exact getLsbD_eq_of_extractLsb'_eq hzero h.1 h.2
  · exact hdir

/-- A command word is its ignored bits and its CMD (R49). -/
theorem commandWord_fields (w : Word) : commandWord (w.extractLsb' 4 28) (cmdOf w) = w := by
  apply BitVec.eq_of_getLsbD_eq
  intro i hi
  rw [commandWord_getLsbD]
  split_ifs with h
  · simp [cmdOf, h]
  · simp [show i - 4 < 28 by omega, show 4 + (i - 4) = i by omega]

/-- What a record decodes to is encoded by that record (R48). -/
theorem encode_of_decodeRecord {r : BitVec 64} {i : Instr} (h : decodeRecord r = .ok i) :
    encode i = .record r := by
  obtain ⟨off, hd⟩ | ⟨off, data, hd⟩ | hd := decodeRecord_cases r
  · obtain rfl := Except.ok.inj (hd.symm.trans h)
    obtain ⟨hdir, hzero, hoff, hdata⟩ := (decodeRecord_eq_rd_iff r off).mp hd
    refine congrArg Encoded.record (record_ext ?_ ?_ ?_ ?_)
    · rw [rdRecord_dir, hdir]
    · rw [rdRecord_zero, hzero]
    · rw [rdRecord_off, hoff]
    · rw [rdRecord_data, hdata]
  · obtain rfl := Except.ok.inj (hd.symm.trans h)
    obtain ⟨hdir, hzero, hoff, hdata⟩ := (decodeRecord_eq_wr_iff r off data).mp hd
    refine congrArg Encoded.record (record_ext ?_ ?_ ?_ ?_)
    · rw [wrRecord_dir, hdir]
    · rw [wrRecord_zero, hzero]
    · rw [wrRecord_off, hoff]
    · rw [wrRecord_data, hdata]
  · simp [hd] at h

/-- What a command word decodes to is encoded by that word (R49, R50). -/
theorem encode_of_decodeCommand {w : Word} {i : Instr} (h : decodeCommand w = .ok i) :
    encode i = .command w := by
  have hcmd {c : BitVec 4} (hw : w.toNat % 16 = c.toNat) : commandWord (w.extractLsb' 4 28) c = w := by
    rw [← (cmdOf_eq_iff w c).mpr hw, commandWord_fields]
  obtain ⟨hw, hd⟩ | ⟨hw, hd⟩ | ⟨hw, hd⟩ | ⟨-, hd⟩ := decodeCommand_cases w
  · exact Except.ok.inj (hd.symm.trans h) ▸ congrArg Encoded.command (hcmd hw)
  · exact Except.ok.inj (hd.symm.trans h) ▸ congrArg Encoded.command (hcmd hw)
  · exact Except.ok.inj (hd.symm.trans h) ▸ congrArg Encoded.command (hcmd hw)
  · simp [hd] at h

/-- Settles O4, level by level. -/
theorem encodeOfDecode : Obligations.EncodeOfDecode := by
  intro e i h
  cases e with
  | record r => exact encode_of_decodeRecord h
  | command w => exact encode_of_decodeCommand h

/-! What a command word does (R49, R50, R70). -/

/-- A word with a command's code decodes to that command, a word with another code to none (R50). -/
theorem decodeCommand_eq (w : Word) : decodeCommand w =
    if w.toNat % 16 = 0 then .ok (.nop (w.extractLsb' 4 28))
    else if w.toNat % 16 = 1 then .ok (.start (w.extractLsb' 4 28))
    else if w.toNat % 16 = 2 then .ok (.clear (w.extractLsb' 4 28))
    else .error (.reservedCommand w) := by
  unfold decodeCommand
  simp only [cmdOf_eq_iff, BitVec.toNat_ofNat]

/-- Of the writes to a block that is not BUSY, only a START makes it BUSY (R18, R70). -/
theorem writeEffect_begins {nw : Nat} {b : Block nw} {r : Reg nw} {data : Word} (hb : b.fsm ≠ .busy)
    (h : (writeEffect b r data).fsm = .busy) : data.toNat % 16 = 1 := by
  cases r with
  | ctrl =>
    rw [writeEffect] at h
    obtain ⟨-, hc⟩ | ⟨-, hc⟩ | ⟨hw, -, -⟩ | ⟨-, hbusy, -⟩ | ⟨hw, -, -⟩ | ⟨-, -, hc⟩ := command_cases data b
    · exact absurd (hc ▸ h) hb
    · rw [hc, reject_fsm] at h
      exact absurd h hb
    · exact hw
    · exact absurd hbusy hb
    · exact hw
    · simp [hc] at h
  | id | param | status | result | aWord | nWord | unmapped => exact absurd h hb

/-- Settles O2, by the code of the word. -/
theorem commandOpcodeMap : Obligations.CommandOpcodeMap := by
  refine ⟨fun w hw => ?_, fun w hw => ?_, fun w hw => ?_, fun w hw => ?_, fun s t off data h hb ht => ?_⟩
  · exact (decodeCommand_eq w).trans (by simp [hw])
  · exact (decodeCommand_eq w).trans (by simp [hw])
  · exact (decodeCommand_eq w).trans (by simp [hw])
  · exact (decodeCommand_eq w).trans (by rw [if_neg (by omega), if_neg (by omega), if_neg (by omega)])
  · obtain rfl := Host.Outcome.next.inj h
    exact writeEffect_begins hb ht

/-- A command depends on CMD alone (R49, R70). -/
theorem command_eq_of_cmd {nw : Nat} {d d' : Word} (h : d.toNat % 16 = d'.toNat % 16) (b : Block nw) :
    command d b = command d' b := by
  have hcmd : cmdOf d = cmdOf d' := (cmdOf_eq_iff d _).mpr (h.trans (cmdOf_toNat d').symm)
  rw [command, hcmd, ← command]

/-- Settles O8, by what a write to CTRL does. -/
theorem ignoredCommandBits : Obligations.IgnoredCommandBits := by
  refine ⟨fun s off d d' hctrl hcmd => ?_, fun s r r' => ⟨rfl, rfl, rfl⟩⟩
  rw [exec_wr_of_decodeOffset d hctrl, exec_wr_of_decodeOffset d' hctrl, writeEffect, writeEffect,
    command_eq_of_cmd hcmd]

/-- A record of a WR to CTRL carries its data word to CTRL (R46). -/
theorem ctrlData_wrRecord (c : Config) (w : Word) : ctrlData c.nw (.record (wrRecord 0x008#12 w)) = some w := by
  have hdec : decodeRecord (wrRecord 0x008#12 w) = .ok (.wr 0x008#12 w) := decode_encode (.wr 0x008#12 w)
  have hctrl : decodeOffset c.nw 0x008#12 = .ctrl := rfl
  simp [ctrlData, hdec, hctrl]

/-- Settles O7, by what an input that writes to CTRL does. -/
theorem commandIsWriteToCtrl : Obligations.CommandIsWriteToCtrl := by
  refine ⟨fun s => ⟨rfl, rfl, rfl⟩, fun c => ⟨rfl, rfl, rfl⟩, fun s w rest => ?_⟩
  have hstep {e : Encoded} (he : ctrlData s.cfg.nw e = some w) : step { s with inputs := .host e :: rest } =
      .next { s with inputs := rest, block := command w s.block } :=
    step_of_ctrlData (s := { s with inputs := .host e :: rest }) rfl he
  exact (hstep rfl).trans (hstep (ctrlData_wrRecord s.cfg w)).symm

/-! RESULT words (R53) and the outcomes of a step (R89). -/

/-- A word that `dec` reads is the encoding of the symbol it reads (R53). -/
theorem enc_of_dec {d : Word} {s : Int} (h : dec d = some s) : (s = 1 ∨ s = 0 ∨ s = -1) ∧ enc s = d := by
  unfold dec at h
  split_ifs at h with h1 h0 hm
  · obtain rfl := Option.some.inj h
    exact ⟨.inl rfl, h1.symm⟩
  · obtain rfl := Option.some.inj h
    exact ⟨.inr (.inl rfl), h0.symm⟩
  · obtain rfl := Option.some.inj h
    exact ⟨.inr (.inr rfl), hm.symm⟩

/-- The encoding of a symbol is its two's complement pattern and is read back (R53). -/
theorem enc_symbol {s : Int} (h : s = 1 ∨ s = 0 ∨ s = -1) : (enc s).toInt = s ∧ dec (enc s) = some s := by
  obtain rfl | rfl | rfl := h <;> decide

/-- RESULT of a legal block is an encoding (R17, R53). -/
theorem Block.Legal.dec_result {nw : Nat} {b : Block nw} (hl : b.Legal) : ∃ s, dec b.result = some s := by
  obtain h | h | h := hl.result_value
  · exact ⟨1, by rw [h]; rfl⟩
  · exact ⟨0, by rw [h]; rfl⟩
  · exact ⟨-1, by rw [h]; rfl⟩

/-- Settles O20, by the three encodings. -/
theorem resultEncoding : Obligations.ResultEncoding :=
  ⟨rfl, rfl, rfl, fun _ => enc_symbol, fun _ _ => enc_of_dec, fun _ _ hl => ⟨hl.dec_result, hl.result_zero⟩⟩

/-- The one input that spells nothing is a record with a must-be-zero bit set (R48). -/
theorem mustBeZero_of_not_spells {ev : Event} (h : ¬ ev.spells = true) :
    ∃ r, ev = .host (.record r) ∧ decode (.record r) = .error (.mustBeZero r) := by
  cases ev with
  | microStep | reset => exact absurd rfl h
  | host e =>
    cases e with
    | command w => exact absurd rfl h
    | record r =>
      refine ⟨r, rfl, ?_⟩
      obtain ⟨off, hd⟩ | ⟨off, data, hd⟩ | hd := decodeRecord_cases r
      · simp [Event.spells, hd, Except.toOption] at h
      · simp [Event.spells, hd, Except.toOption] at h
      · exact hd

/-- A step answers a next state, or refuses a record that spells no transaction (R48, R89). -/
theorem step_next_or_refused (s : State) : (∃ t, step s = .next t)
    ∨ ∃ r rest, s.inputs = .host (.record r) :: rest ∧ decode (.record r) = .error (.mustBeZero r)
      ∧ step s = .refused (.notATransaction r) := by
  rcases hin : s.inputs with _ | ⟨ev, rest⟩
  · exact .inl ⟨_, step_of_engineTurn (.inl hin)⟩
  · by_cases hspells : ev.spells = true
    · exact .inl (step_completes_of_spells hin hspells)
    · obtain ⟨r, rfl, hdec⟩ := mustBeZero_of_not_spells hspells
      exact .inr ⟨r, rest, rfl, hdec, by simp only [step, hin, hdec, undecodable]⟩

/-- Settles O37, by the outcomes of a step. -/
theorem stepsAlwaysComplete : Obligations.StepsAlwaysComplete := by
  refine ⟨fun _ => nofun, fun s refusal h => ?_, fun s i => exec_completes i s⟩
  obtain ⟨t, hnext⟩ | ⟨r, rest, hin, hdec, hrefused⟩ := step_next_or_refused s
  · rw [hnext] at h
    cases h
  · rw [hrefused] at h
    exact ⟨r, rest, hin, hdec, (Host.Outcome.refused.inj h).symm⟩

end Sys2Proof.Machine
end

section
/-! PROOFS. A host's script at the port (R58 to R62): the words of a value (R59), and what a script leads to when
its transactions come in order, alone or with turns of the engine anywhere among them (R41). -/

namespace Sys2Proof.Machine

variable {nw : Nat}

/-! The words of a value (R16, R56, R59). -/

theorem wordOf_zero_toNat (v : Nat) : (wordOf v 0).toNat = v % 2 ^ 32 := by
  rw [wordOf, Nat.mul_zero, Nat.shiftRight_zero, BitVec.toNat_ofNat]

/-- The upper words of a value are the words of its upper part. -/
theorem wordOf_succ (v i : Nat) : wordOf v (i + 1) = wordOf (v / 2 ^ 32) i := by
  rw [wordOf, wordOf, ← Nat.shiftRight_eq_div_pow, ← Nat.shiftRight_add, Nat.mul_succ, Nat.add_comm]

/-- The first n words of a value hold its last 32·n bits. -/
theorem wordsValue_wordOf (n v : Nat) :
    wordsValue (List.ofFn fun i : Fin n => wordOf v i.val) = v % 2 ^ (32 * n) := by
  induction n generalizing v with
  | zero => simp [wordsValue, Nat.mod_one]
  | succ n ih =>
    simp only [List.ofFn_succ, wordsValue_cons, Fin.val_zero, Fin.val_succ, wordOf_succ, wordOf_zero_toNat, ih]
    rw [← Nat.mod_mul, ← Nat.pow_add, Nat.mul_succ, Nat.add_comm]

/-- An operand whose words 0 to k - 1 have been written with those of `v` (R59). -/
def presented (ws : Vector Word nw) (v k : Nat) : Vector Word nw :=
  Vector.ofFn fun i => if i.val < k then wordOf v i.val else ws[i]

theorem presented_zero (ws : Vector Word nw) (v : Nat) : presented ws v 0 = ws := by
  ext i hi
  simp [presented]

/-- Writing the next word (R59). -/
theorem presented_set (ws : Vector Word nw) (v : Nat) {k : Nat} (hk : k < nw) :
    (presented ws v k).set k (wordOf v k) hk = presented ws v (k + 1) := by
  ext i hi
  by_cases h : k = i
  · simp [presented, h]
  · have hlt : i < k ↔ i < k + 1 := by omega
    simp [presented, h, Vector.getElem_set_ne, hlt]

/-- An operand has the value `v` once its lower words are written, if its upper words are those of `v`. -/
theorem operandValue_presented {ws : Vector Word nw} {v k : Nat} (hv : v < 2 ^ (32 * nw))
    (hupper : ∀ i : Fin nw, k ≤ i.val → ws[i] = wordOf v i.val) : operandValue (presented ws v k) = v := by
  have hword (i : Fin nw) : (if i.val < k then wordOf v i.val else ws[i]) = wordOf v i.val := by
    split_ifs with hi
    · rfl
    · exact hupper i (Nat.not_lt.mp hi)
  rw [operandValue, presented, Vector.toList_ofFn]
  simp only [hword]
  rw [wordsValue_wordOf, Nat.mod_eq_of_lt hv]

/-- No word stands above all words, so the full form of `WROP` asks nothing of the words before it. -/
theorem upper_words_of_full (ws : Vector Word nw) (v : Nat) (i : Fin nw) (hi : nw ≤ i.val) :
    ws[i] = wordOf v i.val :=
  absurd i.isLt (Nat.not_lt.mpr hi)

/-! The operand that `WROP` writes (R59). -/

/-- The words of an operand (R14, R15). -/
def Block.words (b : Block nw) : Operand → Vector Word nw
  | .a => b.aWord
  | .n => b.nWord

/-- `b` with other words in one operand. -/
def Block.withWords (b : Block nw) (x : Operand) (ws : Vector Word nw) : Block nw :=
  match x with
  | .a => { b with aWord := ws }
  | .n => { b with nWord := ws }

@[simp] theorem withWords_words (b : Block nw) (x : Operand) : b.withWords x (b.words x) = b := by
  cases x <;> rfl
@[simp] theorem words_withWords (b : Block nw) (x : Operand) (ws : Vector Word nw) :
    (b.withWords x ws).words x = ws := by
  cases x <;> rfl
@[simp] theorem withWords_withWords (b : Block nw) (x : Operand) (ws ws' : Vector Word nw) :
    (b.withWords x ws).withWords x ws' = b.withWords x ws' := by
  cases x <;> rfl
@[simp] theorem withWords_fsm (b : Block nw) (x : Operand) (ws : Vector Word nw) :
    (b.withWords x ws).fsm = b.fsm := by
  cases x <;> rfl

/-- The write of one operand word (R64, R66). -/
theorem exec_wr_operandTarget (s : State) (x : Operand) (i : Fin s.cfg.nw) (data : Word) :
    exec (.wr (targetOffset (operandTarget x i.val)) data) s =
      .next { s with block := s.block.withWords x ((s.block.words x).set i.val data i.isLt) } := by
  cases x with
  | a => exact exec_wr_aWord s i data
  | n => exact exec_wr_nWord s i data

/-! Schedules of a script (R40, R41). -/

/-- `evs` carries out the transactions `is` in order and, if `turns`, lets the engine have turns anywhere among
them. -/
inductive Schedule (turns : Prop) : List Instr → List Event → Prop where
  | nil : Schedule turns [] []
  | turn {is : List Instr} {evs : List Event} :
      turns → Schedule turns is evs → Schedule turns is (.microStep :: evs)
  | host {is : List Instr} {evs : List Event} (i : Instr) :
      Schedule turns is evs → Schedule turns (i :: is) (.host (encode i) :: evs)

/-- A script placed at the port by itself. -/
theorem schedule_alone (is : List Instr) : Schedule False is (is.map fun i => .host (encode i)) := by
  induction is with
  | nil => exact .nil
  | cons i is ih => exact .host i ih

/-- Inputs without a reset whose host transactions are the script's. -/
theorem schedule_of_hostInputs {is : List Instr} {evs : List Event} (hreset : .reset ∉ evs)
    (h : hostInputs evs = is.map encode) : Schedule True is evs := by
  induction evs generalizing is with
  | nil =>
    obtain rfl : is = [] := List.map_eq_nil_iff.mp h.symm
    exact .nil
  | cons ev evs ih =>
    have hrest : .reset ∉ evs := fun hmem => hreset (List.mem_cons_of_mem _ hmem)
    cases ev with
    | reset => exact absurd List.mem_cons_self hreset
    | microStep => exact .turn trivial (ih hrest h)
    | host e =>
      obtain ⟨i, js, rfl, rfl, htail⟩ := List.map_eq_cons_iff.mp h.symm
      exact .host i (ih hrest htail.symm)

/-- A schedule of two scripts one after the other is a schedule of each, one after the other. -/
theorem Schedule.split {turns : Prop} {is js : List Instr} {evs : List Event}
    (h : Schedule turns (is ++ js) evs) :
    ∃ evs₁ evs₂, evs = evs₁ ++ evs₂ ∧ Schedule turns is evs₁ ∧ Schedule turns js evs₂ := by
  generalize hall : is ++ js = all at h
  induction h generalizing is with
  | nil =>
    obtain ⟨rfl, rfl⟩ := List.append_eq_nil_iff.mp hall
    exact ⟨[], [], rfl, .nil, .nil⟩
  | turn hturns _ ih =>
    obtain ⟨evs₁, evs₂, rfl, h₁, h₂⟩ := ih hall
    exact ⟨_ :: evs₁, evs₂, rfl, .turn hturns h₁, h₂⟩
  | @host _ evs i h ih =>
    cases is with
    | nil => exact ⟨[], _, rfl, .nil, by rw [List.nil_append] at hall; exact hall ▸ .host i h⟩
    | cons i' is =>
      obtain ⟨rfl, htail⟩ := List.cons.inj hall
      obtain ⟨evs₁, evs₂, rfl, h₁, h₂⟩ := ih htail
      exact ⟨_ :: evs₁, evs₂, rfl, .host _ h₁, h₂⟩

/-! What a script leads to. -/

/-- A run in two parts. -/
theorem run_add {s t : State} {m : Nat} (h : run m s = .next t) (k : Nat) : run (m + k) s = run k t := by
  induction m generalizing s with
  | zero =>
    obtain rfl := Host.Outcome.next.inj h
    rw [Nat.zero_add]
  | succ m ih =>
    rw [Nat.succ_add, run]
    rw [run] at h
    cases hs : step s with
    | next u =>
      rw [hs] at h
      exact ih h
    | fault f => nomatch f
    | refused r =>
      rw [hs] at h
      cases h

/-- What holds of a block and of the words it has returned. -/
abbrev Condition (c : Config) : Type := Block c.nw → List Word → Prop

variable {turns : Prop} {c : Config} {P Q R : Condition c}

/-- The condition that fixes both. -/
def Exactly (b : Block c.nw) (r : List Word) : Condition c := fun b' r' => b' = b ∧ r' = r

/-- The turns of the engine, if there are any, keep `P`. -/
def Stable (turns : Prop) (P : Condition c) : Prop := turns → ∀ b r, P b r → P (engineTurn b) r

/-- One transaction leads from `P` to `Q`. -/
def Performs (P : Condition c) (i : Instr) (Q : Condition c) : Prop :=
  ∀ b r evs, P b r → ∃ b' r', exec i ⟨c, b, evs, r⟩ = .next ⟨c, b', evs, r'⟩ ∧ Q b' r'

/-- Every schedule of the script `is` leads from `P` to `Q`. -/
def Leads (turns : Prop) (P : Condition c) (is : List Instr) (Q : Condition c) : Prop :=
  ∀ evs rest b r, Schedule turns is evs → P b r →
    ∃ b' r', run evs.length ⟨c, b, evs ++ rest, r⟩ = .next ⟨c, b', rest, r'⟩ ∧ Q b' r'

/-- A turn of the engine before a run. -/
theorem run_microStep (k : Nat) (b : Block c.nw) (evs : List Event) (r : List Word) :
    run (k + 1) ⟨c, b, .microStep :: evs, r⟩ = run k ⟨c, engineTurn b, evs, r⟩ :=
  run_succ (step_of_engineTurn (.inr rfl)) k

/-- A transaction before a run. -/
theorem run_encode {i : Instr} {b b' : Block c.nw} {evs : List Event} {r r' : List Word}
    (h : exec i ⟨c, b, evs, r⟩ = .next ⟨c, b', evs, r'⟩) (k : Nat) :
    run (k + 1) ⟨c, b, .host (encode i) :: evs, r⟩ = run k ⟨c, b', evs, r'⟩ :=
  run_succ ((step_of_host rfl (decode_encode i)).trans h) k

theorem leads_nil (hP : Stable turns P) : Leads turns P [] P := by
  intro evs rest b r hs hb
  generalize his : [] = is at hs
  induction hs generalizing b with
  | nil => exact ⟨b, r, rfl, hb⟩
  | turn hturns _ ih =>
    obtain ⟨b', r', hrun, hQ⟩ := ih (engineTurn b) (hP hturns b r hb) his
    exact ⟨b', r', (run_microStep _ _ _ _).trans hrun, hQ⟩
  | host => cases his

theorem leads_cons {i : Instr} {is : List Instr} (hP : Stable turns P) (hi : Performs P i Q)
    (his : Leads turns Q is R) : Leads turns P (i :: is) R := by
  intro evs rest b r hs hb
  generalize hall : i :: is = all at hs
  induction hs generalizing b with
  | nil => cases hall
  | turn hturns _ ih =>
    obtain ⟨b', r', hrun, hR⟩ := ih (engineTurn b) (hP hturns b r hb) hall
    exact ⟨b', r', (run_microStep _ _ _ _).trans hrun, hR⟩
  | @host _ evs _ hs =>
    obtain ⟨rfl, rfl⟩ := List.cons.inj hall
    obtain ⟨b', r', hexec, hQ⟩ := hi b r (evs ++ rest) hb
    obtain ⟨b'', r'', hrun, hR⟩ := his evs rest b' r' hs hQ
    exact ⟨b'', r'', (run_encode hexec _).trans hrun, hR⟩

theorem leads_singleton {i : Instr} (hP : Stable turns P) (hQ : Stable turns Q) (hi : Performs P i Q) :
    Leads turns P [i] Q :=
  leads_cons hP hi (leads_nil hQ)

theorem leads_append {is js : List Instr} (his : Leads turns P is Q) (hjs : Leads turns Q js R) :
    Leads turns P (is ++ js) R := by
  intro evs rest b r hs hb
  obtain ⟨evs₁, evs₂, rfl, h₁, h₂⟩ := hs.split
  obtain ⟨b', r', hrun, hQ⟩ := his evs₁ (evs₂ ++ rest) b r h₁ hb
  obtain ⟨b'', r'', hrun', hR⟩ := hjs evs₂ rest b' r' h₂ hQ
  refine ⟨b'', r'', ?_, hR⟩
  rw [List.length_append, List.append_assoc, run_add hrun, hrun']

/-! `WROP` (R59). -/

/-- No turn of the engine moves a block that is not BUSY (R75, R105). -/
theorem engineTurn_of_not_busy {b : Block nw} (hb : b.fsm ≠ .busy) : engineTurn b = b := if_neg hb

theorem stable_exactly {b : Block c.nw} (hb : turns → b.fsm ≠ .busy) (r : List Word) :
    Stable turns (Exactly b r) := by
  rintro hturns _ _ ⟨rfl, rfl⟩
  exact ⟨engineTurn_of_not_busy (hb hturns), rfl⟩

theorem wropWrites_succ (x : Operand) (v k : Nat) : wropWrites x v (k + 1) =
    wropWrites x v k ++ [.wr (targetOffset (operandTarget x k)) (wordOf v k)] := by
  rw [wropWrites, List.range_succ, List.map_append, ← wropWrites]
  rfl

/-- The writes of the words 0 to k - 1 of `v` write those words and nothing else, in every state if no turn of the
engine comes between them. -/
theorem leads_wropWrites (x : Operand) (v : Nat) {k : Nat} (hk : k ≤ c.nw) {b : Block c.nw}
    (hb : turns → b.fsm ≠ .busy) (r : List Word) : Leads turns (Exactly b r) (wropWrites x v k)
      (Exactly (b.withWords x (presented (b.words x) v k)) r) := by
  induction k with
  | zero =>
    rw [presented_zero, withWords_words]
    exact leads_nil (stable_exactly hb r)
  | succ k ih =>
    have hstable (ws : Vector Word c.nw) : Stable turns (Exactly (b.withWords x ws) r) :=
      stable_exactly (by simpa using hb) r
    rw [wropWrites_succ]
    refine leads_append (ih (Nat.le_of_succ_le hk)) (leads_singleton (hstable _) (hstable _) ?_)
    rintro _ _ evs ⟨rfl, rfl⟩
    refine ⟨_, _, exec_wr_operandTarget ⟨c, _, evs, _⟩ x ⟨k, hk⟩ (wordOf v k), ?_, rfl⟩
    simp [presented_set]

/-- `WROP X, v, k` by itself leaves the operand with the value `v`, if the words above hold those of `v`. -/
theorem run_wropWrites {s : State} {rest : List Event} {x : Operand} {v k : Nat} (hv : v < 2 ^ s.cfg.width)
    (hk : k ≤ s.cfg.nw) (hin : s.inputs = (wropWrites x v k).map (fun i => .host (encode i)) ++ rest)
    (hupper : ∀ i : Fin s.cfg.nw, k ≤ i.val → (s.block.words x)[i] = wordOf v i.val) :
    ∃ ws, operandValue ws = v ∧ run k s = .next { s with inputs := rest, block := s.block.withWords x ws } := by
  obtain ⟨_, _, hrun, rfl, rfl⟩ := leads_wropWrites (turns := False) x v hk False.elim s.returned _ rest
    s.block s.returned (schedule_alone _) ⟨rfl, rfl⟩
  refine ⟨_, operandValue_presented hv hupper, ?_⟩
  rw [← hin] at hrun
  simpa [wropWrites] using hrun

/-- Settles O54, by what its writes lead to when they come alone. -/
theorem wropPresentsOperand : Obligations.WropPresentsOperand := by
  have hword (v i : Nat) : wordOf v i = BitVec.ofNat 32 ((v >>> (32 * i)) % 2 ^ 32) :=
    BitVec.eq_of_toNat_eq (by simp [wordOf])
  refine ⟨fun nw v k => ⟨?_, ?_, rfl, rfl⟩, fun s rest v hv => ?_, fun s rest v k hv hk => ?_⟩
  · simp only [← hword]
    rfl
  · simp only [← hword]
    rfl
  · simp only [scriptEvents, List.flatMap_singleton, expand]
    exact ⟨fun hin => run_wropWrites (x := .a) hv le_rfl hin (upper_words_of_full _ v),
      fun hin => run_wropWrites (x := .n) hv le_rfl hin (upper_words_of_full _ v)⟩
  · simp only [scriptEvents, List.flatMap_singleton, expand]
    exact ⟨fun hin => run_wropWrites (x := .a) hv hk hin, fun hin => run_wropWrites (x := .n) hv hk hin⟩

end Sys2Proof.Machine
end

section
/-! PROOFS. The host's `JACOBI a, n` (R62): the block has the answer under way from its START on, whatever turns the
engine takes, and a STATUS read that shows BUSY = 0 shows how the computation ended. -/

namespace Sys2Proof.Machine

variable {nw : Nat} {turns : Prop} {c : Config}

/-! The answer to a START on the operands a and n (R62, R72). -/

/-- The operands satisfy the precondition of a START (R2). -/
def Admissible (a n : Nat) : Prop := n % 2 = 1 ∧ 0 < a ∧ a < n

/-- The START on `a` and `n` has ended: with the symbol in RESULT, or with the code of the fault. -/
inductive Block.Answered (b : Block nw) (a n : Nat) : Prop where
  | symbol : b.fsm = .done → Admissible a n → b.result = enc (jac a n) → b.Answered a n
  | fault : b.fsm = .error → b.result = 0#32 →
      (b.errcode = if n % 2 = 0 then 1#4 else if a = 0 then 2#4 else 3#4) → b.Answered a n

/-- The START on `a` and `n` has ended, or the engine is computing its symbol. -/
inductive Block.Answers (b : Block nw) (a n : Nat) : Prop where
  | ended : b.Answered a n → b.Answers a n
  | underway : b.fsm = .busy → b.Legal → Admissible a n → b.symbol = jac a n → b.Answers a n

theorem Block.Answered.not_busy {b : Block nw} {a n : Nat} (h : b.Answered a n) : b.fsm ≠ .busy := by
  cases h with
  | symbol hfsm | fault hfsm => simp [hfsm]

theorem Block.Answered.engineTurn {b : Block nw} {a n : Nat} (h : b.Answered a n) :
    (engineTurn b).Answered a n := by
  rwa [engineTurn_of_not_busy h.not_busy]

/-- The engine keeps the answer under way until it is there. -/
theorem Block.Answers.engineTurn {b : Block nw} {a n : Nat} (h : b.Answers a n) :
    (engineTurn b).Answers a n := by
  cases h with
  | ended h => exact .ended h.engineTurn
  | underway hbusy hl hadm hsymbol =>
    obtain ⟨hdone, hresult⟩ | ⟨hbusy', hsymbol', -⟩ := engineTurn_progress hl hbusy
    · exact .ended (.symbol hdone hadm (hsymbol ▸ hresult))
    · exact .underway hbusy' hl.engineTurn hadm (hsymbol'.trans hsymbol)

/-- An accepted START begins the computation or records the fault (R72). -/
theorem doStart_answers (b : Block nw) : (doStart b).Answers b.aVal b.nVal := by
  by_cases hp : b.preconditionHolds
  · exact .underway (doStart_fsm_of_precondition hp) (legal_doStart b) hp (doStart_symbol hp)
  · refine .ended (.fault (doStart_fsm_of_not_precondition hp) (doStart_result b) ?_)
    rw [doStart_errcode]
    split_ifs with heven hzero hge
    · rfl
    · rfl
    · rfl
    · exact absurd ⟨by omega, by omega, by omega⟩ hp

/-- What STATUS shows of an answered START (R28, R62). -/
theorem Block.Answered.statusWord {b : Block nw} {a n : Nat} (h : b.Answered a n) :
    (b.statusWord.getLsbD 1 = true ∧ n % 2 = 1 ∧ 0 < a ∧ a < n ∧ b.result = enc (jac a n))
    ∨ (b.statusWord.getLsbD 1 = false ∧ b.statusWord.getLsbD 2 = true ∧ b.result = 0x00000000#32
        ∧ b.statusWord.extractLsb' 4 4 = if n % 2 = 0 then 1#4 else if a = 0 then 2#4 else 3#4) := by
  cases h with
  | symbol hdone hadm hresult =>
    obtain ⟨hodd, hpos, hlt⟩ := hadm
    exact .inl ⟨(statusWord_done_iff b).mpr hdone, hodd, hpos, hlt, hresult⟩
  | fault herror hresult hcode =>
    have hdone : ¬ b.statusWord.getLsbD 1 = true := (statusWord_done_iff b).not.mpr (by simp [herror])
    exact .inr ⟨Bool.eq_false_of_not_eq_true hdone, (statusWord_err_iff b).mpr herror, hresult,
      (statusWord_errcode b).trans hcode⟩

/-! The conditions between the transactions of `JACOBI` after its START. -/

/-- The START has been given. -/
def Started (a n : Nat) : Condition c := fun b _ => b.Answers a n

/-- The last word read is a STATUS word; if it shows BUSY = 0, it shows the block as it still is. -/
def Polled (a n : Nat) : Condition c := fun b r => ∃ status older, r = status :: older
  ∧ (status.getLsbD 0 = false → b.Answered a n ∧ status = b.statusWord)

/-- After that STATUS word RESULT has been read. -/
def ResultRead (a n : Nat) : Condition c := fun b r => ∃ result status older, r = result :: status :: older
  ∧ (status.getLsbD 0 = false → b.Answered a n ∧ status = b.statusWord ∧ result = b.result)

theorem stable_started (a n : Nat) : Stable turns (Started (c := c) a n) :=
  fun _ _ _ h => Block.Answers.engineTurn h

theorem stable_polled (a n : Nat) : Stable turns (Polled (c := c) a n) := by
  rintro - b r ⟨status, older, hr, hstatus⟩
  refine ⟨status, older, hr, fun hbit => ?_⟩
  rw [engineTurn_of_not_busy (hstatus hbit).1.not_busy]
  exact hstatus hbit

theorem stable_resultRead (a n : Nat) : Stable turns (ResultRead (c := c) a n) := by
  rintro - b r ⟨result, status, older, hr, hread⟩
  refine ⟨result, status, older, hr, fun hbit => ?_⟩
  rw [engineTurn_of_not_busy (hread hbit).1.not_busy]
  exact hread hbit

/-- START on presented operands (R72). -/
theorem performs_start {b : Block c.nw} (hb : b.fsm ≠ .busy) (r : List Word) :
    Performs (Exactly b r) (.wr 0x008#12 0x00000001#32) (Started (c := c) b.aVal b.nVal) := by
  rintro b r evs ⟨rfl, rfl⟩
  have hstart : (command 1#32 b).Answers b.aVal b.nVal := by
    rw [show command 1#32 b = doStart b from command_of_not_busy 1#32 hb]
    exact doStart_answers b
  exact ⟨_, r, exec_wr_of_decodeOffset (r := .ctrl) _ rfl, hstart⟩

/-- A STATUS read that shows BUSY = 0 finds the START answered (R28). -/
theorem performs_poll (a n : Nat) : Performs (Started (c := c) a n) (.rd 0x00C#12) (Polled a n) := by
  intro b r evs hb
  refine ⟨b, _, exec_rd_of_decodeOffset (r := .status) rfl, _, _, rfl, fun hbit => ?_⟩
  have hidle : b.fsm ≠ .busy := fun hbusy => by
    rw [readValue, (statusWord_busy_iff b).mpr hbusy] at hbit
    cases hbit
  cases hb with
  | ended h => exact ⟨h, rfl⟩
  | underway hbusy => exact absurd hbusy hidle

/-- The read of RESULT (R63). -/
theorem performs_readResult (a n : Nat) : Performs (Polled (c := c) a n) (.rd 0x010#12) (ResultRead a n) := by
  rintro b _ evs ⟨status, older, rfl, hstatus⟩
  refine ⟨b, _, exec_rd_of_decodeOffset (r := .result) rfl, _, _, _, rfl, fun hbit => ?_⟩
  obtain ⟨hanswered, hword⟩ := hstatus hbit
  exact ⟨hanswered, hword, rfl⟩

/-- A POLL loop of at least one read (R61). -/
theorem leads_pollReads (a n reads : Nat) :
    Leads turns (Started (c := c) a n) (pollReads (reads + 1)) (Polled a n) := by
  induction reads with
  | zero => exact leads_singleton (stable_started a n) (stable_polled a n) (performs_poll a n)
  | succ reads ih =>
    exact leads_cons (stable_started a n) (fun b _ _ hb => ⟨b, _, rfl, hb⟩) ih

/-- The writes of both operands (R62). -/
theorem leads_operands {a n : Nat} (ha : a < 2 ^ c.width) (hn : n < 2 ^ c.width) {b : Block c.nw}
    (hb : b.fsm ≠ .busy) (r : List Word) : ∃ b' : Block c.nw, b'.fsm ≠ .busy ∧ b'.aVal = a ∧ b'.nVal = n
      ∧ Leads turns (Exactly b r) (wropWrites .n n c.nw ++ wropWrites .a a c.nw) (Exactly b' r) := by
  refine ⟨_, ?_, ?_, ?_, leads_append (leads_wropWrites .n n le_rfl (fun _ => hb) r)
    (leads_wropWrites .a a le_rfl (fun _ => ?_) r)⟩
  · simpa using hb
  · exact operandValue_presented ha (upper_words_of_full _ a)
  · exact operandValue_presented hn (upper_words_of_full _ n)
  · simpa using hb

/-- The script of `JACOBI a, n` on a block that is not BUSY (R62). -/
theorem leads_jacobi {a n reads : Nat} (hwf : (Stmt.jacobi a n reads).wellFormed c = true) {b : Block c.nw}
    (hb : b.fsm ≠ .busy) (r : List Word) :
    Leads turns (Exactly b r) (expand c.nw (.jacobi a n reads)) (ResultRead a n) := by
  simp only [Stmt.wellFormed, Bool.and_eq_true, decide_eq_true_eq] at hwf
  obtain ⟨⟨ha, hn⟩, hreads⟩ := hwf
  obtain ⟨reads, rfl⟩ := Nat.exists_eq_add_one.mpr hreads
  obtain ⟨b', hb', rfl, rfl, hoperands⟩ := leads_operands (turns := turns) ha hn hb r
  have hstart := leads_singleton (turns := turns) (stable_exactly (fun _ => hb') r) (stable_started _ _)
    (performs_start hb' r)
  have hread := leads_singleton (turns := turns) (c := c) (stable_polled _ _) (stable_resultRead _ _)
    (performs_readResult b'.aVal b'.nVal)
  exact leads_append (leads_append (leads_append hoperands hstart) (leads_pollReads _ _ reads)) hread

/-- The transactions of `JACOBI` (R62, log entry 8). -/
theorem expand_jacobi_length (nw a n reads : Nat) :
    (expand nw (.jacobi a n reads)).length = 2 * nw + 2 + reads := by
  simp only [expand, wropWrites, pollReads, List.length_append, List.length_map, List.length_range,
    List.length_replicate, List.length_singleton]
  omega

/-- Settles O55, by what its script leads to under every schedule. -/
theorem jacobiScriptReturnsSymbol : Obligations.JacobiScriptReturnsSymbol := by
  rintro s _ a n reads rfl hreset hhost hwf hb
  refine ⟨expand_jacobi_length _ _ _ _, ?_⟩
  obtain ⟨b, _, hrun, r, status, older, rfl, hread⟩ := leads_jacobi hwf hb s.returned s.inputs [] s.block s.returned
    (schedule_of_hostInputs hreset hhost) ⟨rfl, rfl⟩
  rw [List.append_nil] at hrun
  refine ⟨_, r, status, older, hrun, rfl, rfl, fun hbit => ?_⟩
  obtain ⟨hanswered, rfl, rfl⟩ := hread hbit
  exact hanswered.statusWord

end Sys2Proof.Machine
end

section
/-! PROOFS. What the transactions RD and WR answer and what they leave unchanged (R63 to R67), register by
register. -/

namespace Sys2Proof.Machine

variable {nw : Nat}

/-! Reads (R63, R65, R67). -/

/-- Settles O13, by the register whose row of the map the offset stands in. -/
theorem readReturnsRegister : Obligations.ReadReturnsRegister := by
  intro s off eff answers
  have hread (r : Reg s.cfg.nw) (hr : r.HasRow eff) : answers (readValue s.block r) :=
    exec_rd_of_decodeOffset (decodeOffset_of_hasRow hr)
  refine ⟨hread .id, hread .param, hread .ctrl, hread .status, hread .result, fun i => hread (.aWord i),
    fun i => hread (.nWord i), exec_rd_of_decodeOffset, fun hl hdone hresult => ?_⟩
  have hzero : readValue s.block .result = 0x00000000#32 := hl.result_zero hdone
  exact hzero ▸ hread .result hresult

/-- Settles O14: a read answers the selected register's value in the block, which the read leaves as it is. -/
theorem readLeavesBlockUnchanged : Obligations.ReadLeavesBlockUnchanged := by
  intro s off
  refine ⟨readValue s.block (decodeOffset s.cfg.nw off), exec_rd_of_decodeOffset rfl,
    exec_rd_of_decodeOffset rfl, fun rest hin => ?_⟩
  rw [step_of_host (by rw [hin, List.head?_cons]) (decode_encode _), hin, List.tail_cons]
  exact exec_rd_of_decodeOffset rfl

/-! Writes (R64, R66). -/

/-- Settles O15, by the register whose row of the map the offset stands in. -/
theorem writeEffectOnRegister : Obligations.WriteEffectOnRegister := by
  intro s off data eff
  have hwrite (r : Reg s.cfg.nw) (hr : r.HasRow eff) :
      exec (.wr off data) s = .next { s with block := writeEffect s.block r data } :=
    exec_wr_of_decodeOffset data (decodeOffset_of_hasRow hr)
  refine ⟨hwrite .ctrl, fun i => hwrite (.aWord i), fun i => hwrite (.nWord i), ?_⟩
  rintro (hid | hparam | hstatus | hresult | hunmapped)
  · exact hwrite .id hid
  · exact hwrite .param hparam
  · exact hwrite .status hstatus
  · exact hwrite .result hresult
  · exact exec_wr_of_decodeOffset data hunmapped

/-- START writes no operand word (R72, R95). -/
theorem doStart_operands (b : Block nw) : (doStart b).aWord = b.aWord ∧ (doStart b).nWord = b.nWord := by
  obtain ⟨-, h⟩ | ⟨-, -, h⟩ | ⟨-, -, -, h⟩ | ⟨-, h⟩ := doStart_cases b
  all_goals
    rw [h]
    exact ⟨rfl, rfl⟩

/-- No command writes an operand word (R70 to R74). -/
theorem command_operands (d : Word) (b : Block nw) :
    (command d b).aWord = b.aWord ∧ (command d b).nWord = b.nWord := by
  obtain ⟨-, h⟩ | ⟨-, h⟩ | ⟨-, -, h⟩ | ⟨-, -, h⟩ | ⟨-, -, h⟩ | ⟨-, -, h⟩ := command_cases d b
  all_goals rw [h]
  · exact ⟨rfl, rfl⟩
  · exact ⟨rfl, rfl⟩
  · exact ⟨rfl, rfl⟩
  · exact ⟨rfl, rfl⟩
  · exact doStart_operands b
  · exact ⟨rfl, rfl⟩

/-- A write changes the words of an operand only where it selects one of them (R66). -/
theorem writeEffect_words_of_ne (b : Block nw) (r : Reg nw) (data : Word) :
    ((∀ i, r ≠ .aWord i) → (writeEffect b r data).aWord = b.aWord)
    ∧ ((∀ i, r ≠ .nWord i) → (writeEffect b r data).nWord = b.nWord) := by
  obtain ⟨-, h⟩ | ⟨i, hi, h⟩ | ⟨i, hi, h⟩ | ⟨-, -, -, h⟩ := writeEffect_cases b r data
  all_goals rw [h]
  · obtain ⟨ha, hn⟩ := command_operands data b
    exact ⟨fun _ => ha, fun _ => hn⟩
  · exact ⟨fun ha => absurd hi (ha i), fun _ => rfl⟩
  · exact ⟨fun _ => rfl, fun hn => absurd hi (hn i)⟩
  · exact ⟨fun _ => rfl, fun _ => rfl⟩

/-- Settles O17, by the register that the offset selects. -/
theorem writeFrame : Obligations.WriteFrame := by
  intro s t off data h
  obtain rfl := Host.Outcome.next.inj ((exec_wr_of_decodeOffset data rfl).symm.trans h)
  obtain ⟨hkeepA, hkeepN⟩ := writeEffect_words_of_ne s.block (decodeOffset s.cfg.nw off) data
  refine ⟨rfl, rfl, rfl, fun hctrl => ?_, fun ha => congrArg _ (hkeepA ha), fun hn => congrArg _ (hkeepN hn),
    fun i hi j hji => ?_, fun i hi j hji => ?_⟩
  · obtain ⟨x, y, hw⟩ := writeEffect_operands s.block data hctrl
    simp only [hw, and_self]
  · simp only [hi, writeEffect, Vector.toList_set, List.getElem?_set_ne hji.symm]
  · simp only [hi, writeEffect, Vector.toList_set, List.getElem?_set_ne hji.symm]

end Sys2Proof.Machine
end

section
/-! PROOFS. The commands NOP, START and CLEAR and the reserved codes (R70 to R74): the dispatch of a word written
to CTRL, and what each command does in every state. -/

namespace Sys2Proof.Machine

variable {nw : Nat}

/-! The dispatch (R70). -/

/-- The dispatch by the number of the code: NOP, a reserved code, a rejection while BUSY, START, CLEAR (R70). -/
theorem command_eq (d : Word) (b : Block nw) : command d b =
    if d.toNat % 16 = 0 then b
    else if d.toNat % 16 ≠ 1 ∧ d.toNat % 16 ≠ 2 then reject b
    else if b.fsm = .busy then reject b
    else if d.toNat % 16 = 1 then doStart b
    else doClear b := by
  obtain ⟨hd, h⟩ | ⟨hd, h⟩ | ⟨hd, hb, h⟩ | ⟨hd, hb, h⟩ | ⟨hd, hb, h⟩ | ⟨hd, hb, h⟩ := command_cases d b
  · simp [h, hd]
  · rw [h, if_neg (by omega), if_pos (by omega)]
  · simp [h, hd, hb]
  · simp [h, hd, hb]
  · simp [h, hd, hb]
  · simp [h, hd, hb]

theorem command_of_nop {d : Word} (hd : d.toNat % 16 = 0) (b : Block nw) : command d b = b := by
  rw [command_eq, if_pos hd]

theorem command_of_reserved {d : Word} (hd : 3 ≤ d.toNat % 16) (b : Block nw) : command d b = reject b := by
  rw [command_eq, if_neg (by omega), if_pos (by omega)]

/-- CLEAR is the command of every word with CMD 2 (R49, R73). -/
theorem command_of_clear {d : Word} (hd : d.toNat % 16 = 2) (b : Block nw) : command d b = clearCommand b :=
  (command_eq_of_cmd (d' := 0x00000002#32) hd b).trans rfl

/-- A WR to CTRL issues its data word as a command (R66). -/
theorem exec_wr_ctrl {s : State} {off : Offset} (d : Word) (hctrl : decodeOffset s.cfg.nw off = .ctrl) :
    exec (.wr off d) s = .next { s with block := command d s.block } :=
  exec_wr_of_decodeOffset d hctrl

/-- Settles O26, by the dispatch of the command word. -/
theorem commandDispatch : Obligations.CommandDispatch := by
  intro s off d hctrl c
  rw [exec_wr_ctrl d hctrl, command_eq]
  rfl

/-- Settles O27, by the dispatch of a word with CMD 0. -/
theorem nopChangesNothing : Obligations.NopChangesNothing := by
  refine ⟨fun s rsv => rfl, fun s off d hctrl hd => ?_⟩
  rw [exec_wr_ctrl d hctrl, command_of_nop hd]

/-- Settles O28, by the dispatch of a word with a reserved code. -/
theorem reservedCommandSetsCmderr : Obligations.ReservedCommandSetsCmderr := by
  refine ⟨fun s off d hctrl hd => ?_, ⟨_, rfl, rfl⟩⟩
  rw [exec_wr_ctrl d hctrl, command_of_reserved hd, reject]

/-! START (R72). -/

/-- A START that does not begin a computation writes RESULT and records the first cause (R72, R93, R95). -/
theorem doStart_of_not_precondition {b : Block nw} (h : ¬ b.preconditionHolds) :
    doStart b = raisePreconditionFault
      (if b.nVal % 2 = 0 then 1#4 else if b.aVal = 0 then 2#4 else 3#4) { b with result := 0#32 } := by
  obtain ⟨heven, hs⟩ | ⟨hodd, hzero, hs⟩ | ⟨hodd, hpos, -, hs⟩ | ⟨hp, -⟩ := doStart_cases b
  · rw [hs, if_pos heven]
  · rw [hs, if_neg (by omega), if_pos hzero]
  · rw [hs, if_neg (by omega), if_neg (by omega)]
  · exact absurd hp h

theorem startCommand_of_busy {b : Block nw} (hb : b.fsm = .busy) : startCommand b = reject b := if_pos hb

theorem startCommand_of_not_busy {b : Block nw} (hb : b.fsm ≠ .busy) : startCommand b = doStart b := if_neg hb

/-- Settles O29, by the three cases of a START: rejected, a computation begun, a fault recorded. -/
theorem startOutcome : Obligations.StartOutcome := by
  intro s rsv
  refine ⟨startCommand s.block, rfl, startCommand_of_busy, fun hb => ?_⟩
  rw [startCommand_of_not_busy hb]
  obtain ⟨ha, hn⟩ := doStart_operands s.block
  refine ⟨doStart_result _, doStart_cmderr _, ha, hn, fun hp => ?_, fun hp => ?_⟩
  · rw [doStart_of_precondition hp]
    exact ⟨rfl, rfl, rfl, rfl, rfl⟩
  · rw [doStart_of_not_precondition hp]
    exact ⟨rfl, rfl, rfl, rfl, rfl⟩

/-! CLEAR (R73). -/

theorem clearCommand_of_busy {b : Block nw} (hb : b.fsm = .busy) : clearCommand b = reject b := if_pos hb

theorem clearCommand_of_not_busy {b : Block nw} (hb : b.fsm ≠ .busy) : clearCommand b = doClear b := if_neg hb

/-- What CLEAR writes is already there in a legal IDLE block without a command error (R17, R20). -/
theorem doClear_of_idle {b : Block nw} (hl : b.Legal) (hidle : b.fsm = .idle) (hcmderr : b.cmderr = false) :
    doClear b = b := by
  have hresult : b.result = 0#32 := hl.result_zero (by simp [hidle])
  have herrcode : b.errcode = 0#4 := hl.errcode_zero (by simp [hidle])
  rw [doClear, ← hidle, ← herrcode, ← hcmderr, ← hresult]

/-- An accepted CLEAR leaves STATUS 0 (R28, R73). -/
theorem doClear_statusWord (b : Block nw) : (doClear b).statusWord = 0x00000000#32 := by
  have hstatus : (doClear b).statusWord = 0#24 ++ 0#4 ++ 0#1 ++ 0#1 ++ 0#1 ++ 0#1 := rfl
  exact hstatus.trans (by decide)

/-- Of the commands only CLEAR clears CMDERR (R21, R73). -/
theorem command_clears_cmderr {d : Word} {b : Block nw} (hset : b.cmderr = true)
    (hclear : (command d b).cmderr = false) : d.toNat % 16 = 2 := by
  obtain ⟨-, h⟩ | ⟨-, h⟩ | ⟨-, -, h⟩ | ⟨hd, -⟩ | ⟨-, -, h⟩ | ⟨hd, -⟩ := command_cases d b
  · simp [h, hset] at hclear
  · simp [h] at hclear
  · simp [h] at hclear
  · exact hd
  · simp [h, hset] at hclear
  · exact hd

/-- Of the writes to a register only a CLEAR clears CMDERR (R66, R73). -/
theorem writeEffect_clears_cmderr {r : Reg nw} {d : Word} {b : Block nw} (hset : b.cmderr = true)
    (hclear : (writeEffect b r d).cmderr = false) : d.toNat % 16 = 2 := by
  by_cases hr : r = .ctrl
  · rw [hr] at hclear
    exact command_clears_cmderr hset hclear
  · obtain ⟨x, y, hw⟩ := writeEffect_operands b d hr
    simp [hw, hset] at hclear

/-- Settles O30, by the two cases of a CLEAR: rejected or accepted. -/
theorem clearOutcome : Obligations.ClearOutcome := by
  refine ⟨fun s rsv => rfl, fun s rsv hl hidle hcmderr => ?_, fun s t off d h hset hclear => ?_,
    fun s off d hctrl hd => ?_, fun s rsv herror _ => ⟨_, rfl, ?_⟩⟩
  · rw [exec, execClear, clearCommand_of_not_busy (by simp [hidle]), doClear_of_idle hl hidle hcmderr]
  · obtain rfl := Host.Outcome.next.inj h
    exact writeEffect_clears_cmderr hset hclear
  · rw [exec_wr_ctrl d hctrl, command_of_clear hd, exec, execClear]
  · rw [clearCommand_of_not_busy (by simp [herror]), doClear_statusWord]

/-! What START and CLEAR leave unchanged, accepted or rejected (R70, R72, R73). -/

theorem startCommand_operands (b : Block nw) :
    (startCommand b).aWord = b.aWord ∧ (startCommand b).nWord = b.nWord :=
  command_operands 0x00000001#32 b

theorem clearCommand_operands (b : Block nw) :
    (clearCommand b).aWord = b.aWord ∧ (clearCommand b).nWord = b.nWord :=
  command_operands 0x00000002#32 b

/-- A START that is rejected or records a fault leaves the working registers (R70, R95). -/
theorem startCommand_working {b : Block nw} (h : b.fsm = .busy ∨ ¬ b.preconditionHolds) :
    (startCommand b).wa = b.wa ∧ (startCommand b).wp = b.wp ∧ (startCommand b).wt = b.wt := by
  by_cases hb : b.fsm = .busy
  · rw [startCommand_of_busy hb]
    exact ⟨rfl, rfl, rfl⟩
  · rw [startCommand_of_not_busy hb, doStart_of_not_precondition (h.resolve_left hb)]
    exact ⟨rfl, rfl, rfl⟩

/-- CLEAR leaves the working registers (R70, R73). -/
theorem clearCommand_working (b : Block nw) :
    (clearCommand b).wa = b.wa ∧ (clearCommand b).wp = b.wp ∧ (clearCommand b).wt = b.wt := by
  by_cases hb : b.fsm = .busy
  · rw [clearCommand_of_busy hb]
    exact ⟨rfl, rfl, rfl⟩
  · rw [clearCommand_of_not_busy hb]
    exact ⟨rfl, rfl, rfl⟩

/-- Settles O31, command by command. -/
theorem commandFrame : Obligations.CommandFrame := by
  rintro s t rsv i (rfl | rfl | rfl) h
  all_goals obtain rfl := Host.Outcome.next.inj h
  · exact ⟨rfl, rfl, rfl, rfl, rfl, fun _ => ⟨rfl, rfl, rfl⟩, nofun⟩
  · obtain ⟨ha, hn⟩ := startCommand_operands s.block
    refine ⟨rfl, rfl, rfl, congrArg _ ha, congrArg _ hn, fun hnot => ?_, fun _ hb => ?_⟩
    · obtain ⟨hwa, hwp, hwt⟩ := startCommand_working (hnot.resolve_left (absurd rfl))
      exact ⟨congrArg _ hwa, congrArg _ hwp, hwt⟩
    · exact (congrArg _ (startCommand_of_not_busy hb)).trans (doStart_cmderr s.block)
  · obtain ⟨ha, hn⟩ := clearCommand_operands s.block
    obtain ⟨hwa, hwp, hwt⟩ := clearCommand_working s.block
    exact ⟨rfl, rfl, rfl, congrArg _ ha, congrArg _ hn, fun _ => ⟨congrArg _ hwa, congrArg _ hwp, hwt⟩, nofun⟩

end Sys2Proof.Machine
end

section
/-! PROOFS. The micro-steps of the engine, one by one (R75 to R78): which of them a turn carries out, what it
writes, and what it leaves unchanged. -/

namespace Sys2Proof.Machine

variable {nw : Nat}

/-! Which micro-step a turn carries out (R75, R105). -/

/-- A BUSY engine whose argument is even and not 0 halves it (R75, R77). -/
theorem engineTurn_of_even {b : Block nw} (hbusy : b.fsm = .busy) (hwa : b.wa.toNat ≠ 0)
    (heven : b.wa.toNat % 2 = 0) : engineTurn b = halve b := by
  rw [engineTurn, if_pos hbusy, engineStep, if_neg hwa, if_pos heven]

/-- A BUSY engine whose argument is odd swaps (R75, R78). -/
theorem engineTurn_of_odd {b : Block nw} (hbusy : b.fsm = .busy) (hodd : b.wa.toNat % 2 = 1) :
    engineTurn b = swap b := by
  rw [engineTurn, if_pos hbusy, engineStep, if_neg (by omega), if_neg (by omega)]

/-- A turn of the engine as the next input (R41). -/
theorem step_of_microStep {s : State} {rest : List Event} (hin : s.inputs = .microStep :: rest) :
    step s = .next { s with inputs := rest, block := engineTurn s.block } := by
  rw [step_of_engineTurn (.inr (by rw [hin, List.head?_cons])), hin, List.tail_cons]

/-- No number of turns moves a block that is not BUSY (R75, R105). -/
theorem microSteps_of_not_busy {b : Block nw} (hb : b.fsm ≠ .busy) (m : Nat) : microSteps m b = b := by
  induction m with
  | zero => rfl
  | succ m ih => rw [microSteps, engineTurn_of_not_busy hb, ih]

/-- Settles O36: a turn of the engine does nothing to a block that is not BUSY, and an idle host leaves it the
turn. -/
theorem quiescentUnlessBusy : Obligations.QuiescentUnlessBusy := by
  intro s hb
  refine ⟨fun hin => ?_, fun rest hin => ?_, microSteps_of_not_busy hb⟩
  · rw [step_of_engineTurn (.inl hin), engineTurn_of_not_busy hb, hin, List.tail_nil, ← hin]
  · rw [step_of_microStep hin, engineTurn_of_not_busy hb]

/-! What each micro-step writes (R76 to R78). -/

theorem finish_eq (b : Block nw) : finish b = { b with
    result := if b.wp.toNat = 1 then (if b.wt = false then 0x00000001#32 else 0xFFFFFFFF#32)
      else 0x00000000#32
    fsm := .done } := by
  have hsign : enc (signOf b.wt) = if b.wt = false then 0x00000001#32 else 0xFFFFFFFF#32 := by
    cases b.wt <;> rfl
  rw [finish, hsign]
  rfl

/-- A flip of the sign, written as a choice (R25). -/
theorem xor_eq_ite (wt flip : Bool) : (wt ^^ flip) = if flip then !wt else wt := by
  cases wt <;> cases flip <;> rfl

theorem halve_eq (b : Block nw) : halve b = { b with
    wt := if b.wp.toNat % 8 = 3 ∨ b.wp.toNat % 8 = 5 then !b.wt else b.wt
    wa := BitVec.ofNat (32 * nw) (b.wa.toNat / 2) } := by
  have hwa : b.wa >>> 1 = BitVec.ofNat (32 * nw) (b.wa.toNat / 2) := by
    rw [← halve_wa_toNat, BitVec.ofNat_toNat, BitVec.setWidth_eq, halve_wa]
  rw [halve, xor_eq_ite, if_congr (halveFlips_iff _) rfl rfl, hwa]

theorem swap_eq (b : Block nw) : swap b = { b with
    wt := if b.wa.toNat % 4 = 3 ∧ b.wp.toNat % 4 = 3 then !b.wt else b.wt
    wa := BitVec.ofNat (32 * nw) (b.wp.toNat % b.wa.toNat)
    wp := b.wa } := by
  have hwa : b.wp % b.wa = BitVec.ofNat (32 * nw) (b.wp.toNat % b.wa.toNat) := by
    rw [← swap_wa_toNat, BitVec.ofNat_toNat, BitVec.setWidth_eq, swap_wa]
  rw [swap, xor_eq_ite, if_congr (swapFlips_iff _ _) rfl rfl, hwa]

/-- Settles O38: the first part by FINISH, the second from gcd(0, wp) = wp. -/
theorem finishMicroStep : Obligations.FinishMicroStep := by
  refine ⟨fun s rest hin hbusy hwa => ?_, fun nw A0 N0 b hc hwa =>
    ⟨Nat.one_le_iff_ne_zero.mp hc.wp_pos, fun _ => ?_⟩⟩
  · rw [step_of_microStep hin, engineTurn_of_zero hbusy hwa, finish_eq]
  · rw [← hc.gcd_eq, hwa, Nat.gcd_zero_left]

/-- `k` turns halve an argument that 2^k divides `k` times; each tests the same modulus, so that the flips
cancel in pairs (R77). -/
theorem microSteps_of_pow_dvd (k : Nat) {b : Block nw} (hbusy : b.fsm = .busy) (hwa : b.wa.toNat ≠ 0)
    (hdvd : 2 ^ k ∣ b.wa.toNat) : microSteps k b = { b with
      wt := if (b.wp.toNat % 8 = 3 ∨ b.wp.toNat % 8 = 5) ∧ k % 2 = 1 then !b.wt else b.wt
      wa := BitVec.ofNat (32 * nw) (b.wa.toNat / 2 ^ k) } := by
  induction k generalizing b with
  | zero => simp [microSteps]
  | succ k ih =>
    obtain ⟨q, hq⟩ := hdvd
    have htwice : b.wa.toNat = 2 * (2 ^ k * q) := by rw [hq, Nat.pow_succ', Nat.mul_assoc]
    have hhalf : (halve b).wa.toNat = 2 ^ k * q := by rw [halve_wa_toNat]; omega
    have hrest := ih (b := halve b) hbusy (by omega) (Dvd.intro q hhalf.symm)
    have hdiv : (halve b).wa.toNat / 2 ^ k = b.wa.toNat / 2 ^ (k + 1) := by
      rw [halve_wa_toNat, Nat.div_div_eq_div_mul, Nat.pow_succ']
    rw [microSteps, engineTurn_of_even hbusy hwa (by omega), hrest, hdiv, halve_eq]
    by_cases hflip : b.wp.toNat % 8 = 3 ∨ b.wp.toNat % 8 = 5
    · have hparity : (k + 1) % 2 = 1 ↔ ¬ k % 2 = 1 := by omega
      by_cases hk : k % 2 = 1 <;> simp [hflip, hparity, hk]
    · simp [hflip]

/-- Settles O39: one HALVE as written, and `k` of them by induction. -/
theorem halveMicroStep : Obligations.HalveMicroStep := by
  refine ⟨fun s rest hin hbusy hwa heven => ⟨?_, by omega⟩, fun _ k _ => microSteps_of_pow_dvd k⟩
  rw [step_of_microStep hin, engineTurn_of_even hbusy hwa heven, halve_eq]

/-- Settles O40: SWAP as written. -/
theorem swapMicroStep : Obligations.SwapMicroStep := by
  refine fun s rest hin hbusy hodd => ⟨?_, fun hone => by rw [hone, Nat.mod_one]⟩
  rw [step_of_microStep hin, engineTurn_of_odd hbusy hodd, swap_eq]

/-! What a turn leaves unchanged (R75 to R78). -/

theorem engineTurn_operands (b : Block nw) :
    (engineTurn b).aWord = b.aWord ∧ (engineTurn b).nWord = b.nWord := by
  obtain ⟨-, h⟩ | ⟨-, -, h⟩ | ⟨-, -, -, h⟩ | ⟨-, -, h⟩ := engineTurn_cases b <;> simp [h]

/-- Only SWAP, whose argument is odd, writes wp (R78). -/
theorem engineTurn_wp_of_even {b : Block nw} (heven : b.wa.toNat % 2 = 0) : (engineTurn b).wp = b.wp := by
  obtain ⟨-, h⟩ | ⟨-, -, h⟩ | ⟨-, -, -, h⟩ | ⟨-, hodd, -⟩ := engineTurn_cases b
  · rw [h]
  · rw [h, finish_wp]
  · rw [h, halve_wp]
  · omega

/-- FINISH leaves wa and wt (R76). -/
theorem engineTurn_working_of_zero {b : Block nw} (hwa : b.wa.toNat = 0) :
    (engineTurn b).wa = b.wa ∧ (engineTurn b).wt = b.wt := by
  by_cases hbusy : b.fsm = .busy
  · rw [engineTurn_of_zero hbusy hwa]
    exact ⟨rfl, rfl⟩
  · rw [engineTurn_of_not_busy hbusy]
    exact ⟨rfl, rfl⟩

/-- Settles O41, register by register. -/
theorem engineFrame : Obligations.EngineFrame := by
  intro s t hturn h
  obtain rfl := Host.Outcome.next.inj ((step_of_engineTurn hturn.symm).symm.trans h)
  obtain ⟨ha, hn⟩ := engineTurn_operands s.block
  refine ⟨rfl, rfl, rfl, congrArg _ ha, congrArg _ hn, engineTurn_errcode _, engineTurn_cmderr _,
    engineTurn_of_ne_zero, fun heven => congrArg _ (engineTurn_wp_of_even heven), fun hwa => ?_⟩
  obtain ⟨hwa', hwt⟩ := engineTurn_working_of_zero hwa
  exact ⟨(congrArg _ hwa').trans hwa, hwt⟩

end Sys2Proof.Machine
end

section
/-! PROOFS. The engine's function is the Jacobi symbol (R79, R83 to R85): its recursion follows the supplementary
law for 2 and reciprocity. What clients rely on follows from the laws of the symbol (R87, R88). -/

namespace Sys2Proof.Machine

variable {nw : Nat}

/-! The two laws of the symbol that the engine uses, as a flip of the sign. -/

/-- The supplementary law for 2, as HALVE applies it (R77). -/
theorem halveFlips_jacobiSym {a p : Nat} (s : Int) (heven : a % 2 = 0) (hp : p % 2 = 1) :
    (if halveFlips p then -s else s) * jacobiSym ((a / 2 : Nat) : Int) p = s * jacobiSym a p := by
  have hlaw := jacobiSym.even_odd (a := a) (by omega) hp
  rw [if_congr (halveFlips_iff p) rfl rfl, Int.natCast_div, Nat.cast_ofNat, ← hlaw]
  split_ifs <;> ring

/-- Reciprocity, as SWAP applies it; the symbol does not change when its argument is reduced (R78). -/
theorem swapFlips_jacobiSym {a p : Nat} (s : Int) (ha : a % 2 = 1) (hp : p % 2 = 1) :
    (if swapFlips a p then -s else s) * jacobiSym ((p % a : Nat) : Int) a = s * jacobiSym a p := by
  have hlaw := jacobiSym.quadratic_reciprocity_if ha hp
  rw [if_congr (swapFlips_iff a p) rfl rfl, Int.natCast_mod, ← jacobiSym.mod_left, ← hlaw]
  split_ifs <;> ring

/-- The symbol of 0, as FINISH answers it (R76): 1 for the modulus 1, else 0. -/
theorem jacobiSym_zero_left {p : Nat} (hp : 0 < p) : jacobiSym 0 p = if p = 1 then 1 else 0 := by
  split_ifs with hone
  · rw [hone, jacobiSym.one_right]
  · exact jacobiSym.zero_left (by omega)

/-- On an odd modulus the recursion of R79 is the Jacobi symbol, with the sign carried along. -/
theorem go_eq_jacobiSym (a : Nat) {p : Nat} (s : Int) (hp : p % 2 = 1) : go a p s = s * jacobiSym a p := by
  induction a using Nat.strong_induction_on generalizing p s with
  | h a ih =>
    obtain rfl | hpos := Nat.eq_zero_or_pos a
    · rw [go_zero, Nat.cast_zero, jacobiSym_zero_left (by omega), mul_ite, mul_one, mul_zero]
    · obtain heven | hodd := Nat.mod_two_eq_zero_or_one a
      · rw [go_of_even p s hpos.ne' heven, ih (a / 2) (by omega) _ hp, halveFlips_jacobiSym s heven hp]
      · rw [go_of_odd p s hodd, ih (p % a) (Nat.mod_lt p hpos) _ hodd, swapFlips_jacobiSym s hodd hp]

theorem jac_eq_jacobiSym (a : Nat) {n : Nat} (hn : n % 2 = 1) : jac a n = jacobiSym a n := by
  rw [jac, go_eq_jacobiSym a 1 hn, one_mul]

/-- Settles O48: an odd modulus is enough, and for a prime Mathlib's two symbols agree. -/
theorem jacIsJacobiSymbol : Obligations.JacIsJacobiSymbol := by
  refine ⟨fun a n hn _ _ _ => jac_eq_jacobiSym a hn, fun a p _ hp _ _ => ?_⟩
  rw [jac_eq_jacobiSym a hp, jacobiSym.legendreSym.to_jacobiSym]

/-- Settles O47, by the values and the zeros of the Jacobi symbol. -/
theorem jacZeroIffGcd : Obligations.JacZeroIffGcd := by
  intro a n hn hpos hlt
  have hgcd : 0 < Nat.gcd a n := Nat.gcd_pos_of_pos_left n hpos
  rw [jac_eq_jacobiSym a hn]
  refine ⟨?_, ?_⟩
  · obtain h | h | h := jacobiSym.trichotomy a n <;> simp [h]
  · rw [jacobiSym.eq_zero_iff, Int.gcd_natCast_natCast]
    omega

/-- A START with N odd and A = 0 is answered with fault 2 (R72, R93). -/
theorem doStart_of_zero {b : Block nw} (hodd : b.nVal % 2 = 1) (hzero : b.aVal = 0) :
    (doStart b).fsm = .error ∧ (doStart b).errcode = 2#4 := by
  have hp : ¬ b.preconditionHolds := fun ⟨_, hpos, _⟩ => hpos.ne' hzero
  rw [doStart_of_not_precondition hp, if_neg (by omega), if_pos hzero]
  exact ⟨rfl, rfl⟩

/-- Settles O49, by the multiplicativity of the Jacobi symbol. -/
theorem jacMultiplicative : Obligations.JacMultiplicative := by
  refine ⟨fun a b n hn _ _ _ _ _ _ => ?_, fun nw a b n blk hn hzero _ ha hN => ?_⟩
  · rw [jac_eq_jacobiSym _ hn, jac_eq_jacobiSym a hn, jac_eq_jacobiSym b hn, Int.natCast_mod,
      ← jacobiSym.mod_left, Nat.cast_mul, jacobiSym.mul_left]
  · exact doStart_of_zero (hN ▸ hn) (ha.trans hzero)

/-- Settles O51, by the residue that the client presents. -/
theorem clientContracts : Obligations.ClientContracts := by
  refine ⟨fun nw y p hprime b hp _ ha hN => ⟨fun hdvd => ?_, fun hdvd => ?_⟩,
    fun nw a p q b hp hq _ hpos hlt ha hN => ?_⟩
  · exact doStart_of_zero (hN ▸ hp) (ha.trans (Nat.mod_eq_zero_of_dvd hdvd))
  · have hpos : 0 < y % p := Nat.pos_of_ne_zero (mt Nat.dvd_of_mod_eq_zero hdvd)
    have hlt : y % p < p := Nat.mod_lt y hprime.out.pos
    have hsymbol : jac (y % p) p = legendreSym p y := by
      rw [jac_eq_jacobiSym _ hp, Int.natCast_mod, ← jacobiSym.mod_left, jacobiSym.legendreSym.to_jacobiSym]
    refine ⟨doStart_fsm_of_precondition ⟨by omega, by omega, by omega⟩, hsymbol, ?_⟩
    rw [hsymbol, Ne, legendreSym.eq_zero_iff, Int.cast_natCast, ZMod.natCast_eq_zero_iff]
    exact hdvd
  · have hodd : p * q % 2 = 1 := by rw [Nat.mul_mod, hp, hq]
    exact doStart_fsm_of_precondition ⟨by omega, by omega, by omega⟩

end Sys2Proof.Machine
end

section
/-! PROOFS. The invariants of a computation (R80, R86): what START establishes, what every turn of the engine
keeps, and hence what every step keeps as long as the block is BUSY. -/

namespace Sys2Proof.Machine

variable {nw : Nat}

/-! How a step begins a computation and how it goes on with one (R41, R70). -/

/-- A step that accepts a START and leaves the block BUSY takes a snapshot that satisfies the precondition
(R72). -/
theorem begins_of_acceptsStart {s t : State} (h : step s = .next t) (hstart : s.acceptsStart)
    (hbusy : t.block.fsm = .busy) :
    s.block.preconditionHolds ∧ t = { s with inputs := s.inputs.tail, block := doStart s.block } := by
  obtain ⟨k, hk, he⟩ := step_turn h
  obtain rfl := hk.start_iff.mp hstart
  cases he
  refine ⟨?_, rfl⟩
  by_contra hp
  simp [doStart_fsm_of_not_precondition hp] at hbusy

/-- A property of a computation that a turn of the engine keeps and that does not speak of CMDERR or of the
operand words is kept by every step from BUSY to BUSY (R113). -/
theorem step_keeps_of_busy {P : {nw : Nat} → Block nw → Prop}
    (hengine : ∀ {nw : Nat} {b : Block nw}, P b → b.fsm = .busy → (engineTurn b).fsm = .busy → P (engineTurn b))
    (hhost : ∀ {nw : Nat} {b : Block nw} (c : Bool) (x y : Vector Word nw), P b →
      P { b with cmderr := c, aWord := x, nWord := y })
    {s t : State} (hP : P s.block) (hbusy : s.block.fsm = .busy) (h : step s = .next t)
    (hbusy' : t.block.fsm = .busy) : P t.block := by
  obtain ⟨k, hk, he⟩ := step_turn h
  cases he with
  | reset => simp at hbusy'
  | start => exact absurd hbusy (hk.start_iff.mpr rfl).2
  | clear => simp at hbusy'
  | rejected => exact hhost true s.block.aWord s.block.nWord hP
  | engine => exact hengine hP hbusy hbusy'
  | other x y => exact hhost s.block.cmderr x y hP

/-! The invariants of R80. -/

/-- An accepted START establishes the invariants for its snapshot (R72). -/
theorem computesFrom_doStart {b : Block nw} (h : b.preconditionHolds) :
    (doStart b).ComputesFrom b.aVal b.nVal := by
  have ⟨hodd, hpos, hlt⟩ := h
  rw [doStart_of_precondition h]
  exact {
    busy := rfl
    wp_odd := hodd
    wp_pos := hpos.trans hlt
    wp_le := le_rfl
    wa_lt := hlt
    wa_fits := operandValue_lt b.aWord
    wp_fits := operandValue_lt b.nWord
    gcd_eq := rfl }

/-- A factor 2 of the argument is no factor of an odd modulus (R77). -/
theorem gcd_half {a p : Nat} (heven : a % 2 = 0) (hp : p % 2 = 1) : Nat.gcd (a / 2) p = Nat.gcd a p := by
  have hcoprime : Nat.Coprime 2 p := Nat.coprime_two_left.mpr (Nat.odd_iff.mpr hp)
  conv_rhs => rw [← Nat.mul_div_cancel' (Nat.dvd_of_mod_eq_zero heven)]
  exact (hcoprime.gcd_mul_left_cancel (a / 2)).symm

theorem Block.ComputesFrom.halve {A0 N0 : Nat} {b : Block nw} (hc : b.ComputesFrom A0 N0)
    (heven : b.wa.toNat % 2 = 0) : (halve b).ComputesFrom A0 N0 where
  busy := hc.busy
  wp_odd := hc.wp_odd
  wp_pos := hc.wp_pos
  wp_le := hc.wp_le
  wa_lt := by
    have hlt := hc.wa_lt
    rw [halve_wa_toNat, halve_wp]
    omega
  wa_fits := BitVec.isLt _
  wp_fits := BitVec.isLt _
  gcd_eq := by rw [halve_wa_toNat, halve_wp, gcd_half heven hc.wp_odd, hc.gcd_eq]

theorem Block.ComputesFrom.swap {A0 N0 : Nat} {b : Block nw} (hc : b.ComputesFrom A0 N0)
    (hodd : b.wa.toNat % 2 = 1) : (swap b).ComputesFrom A0 N0 where
  busy := hc.busy
  wp_odd := hodd
  wp_pos := by
    rw [swap_wp]
    omega
  wp_le := hc.wa_lt.le.trans hc.wp_le
  wa_lt := by
    rw [swap_wa_toNat, swap_wp]
    exact Nat.mod_lt _ (by omega)
  wa_fits := BitVec.isLt _
  wp_fits := BitVec.isLt _
  gcd_eq := by rw [swap_wa_toNat, swap_wp, ← Nat.gcd_rec, hc.gcd_eq]

/-- A turn of the engine that does not finish keeps the invariants (R75). -/
theorem Block.ComputesFrom.engineTurn {A0 N0 : Nat} {b : Block nw} (hc : b.ComputesFrom A0 N0)
    (hbusy : (engineTurn b).fsm = .busy) : (engineTurn b).ComputesFrom A0 N0 := by
  obtain ⟨-, h⟩ | ⟨-, -, h⟩ | ⟨-, -, heven, h⟩ | ⟨-, hodd, h⟩ := engineTurn_cases b
  · rwa [h]
  · simp [h] at hbusy
  · exact h ▸ hc.halve heven
  · exact h ▸ hc.swap hodd

/-- The invariants speak of fsm, wa and wp only. -/
theorem Block.ComputesFrom.with_cmderr_operands {A0 N0 : Nat} {b : Block nw} (hc : b.ComputesFrom A0 N0)
    (c : Bool) (x y : Vector Word nw) : { b with cmderr := c, aWord := x, nWord := y }.ComputesFrom A0 N0 :=
  { hc with }

theorem step_keeps_computesFrom {A0 N0 : Nat} {s t : State} (hc : s.block.ComputesFrom A0 N0)
    (h : step s = .next t) (hbusy : t.block.fsm = .busy) : t.block.ComputesFrom A0 N0 :=
  step_keeps_of_busy (P := Block.ComputesFrom A0 N0) (fun hc _ hbusy => hc.engineTurn hbusy)
    (fun c x y hc => hc.with_cmderr_operands c x y) hc hc.busy h hbusy

/-- Settles O42: START establishes the invariants, and every step that stays BUSY keeps them. -/
theorem engineInvariant : Obligations.EngineInvariant := by
  refine ⟨fun s t h hstart hbusy => ?_, fun s t A0 N0 => step_keeps_computesFrom⟩
  obtain ⟨hp, rfl⟩ := begins_of_acceptsStart h hstart hbusy
  exact computesFrom_doStart hp

/-! The value invariant of R86. -/

/-- On an odd modulus the symbol left to compute is the one of R86. -/
theorem symbol_eq_jacobiSym {b : Block nw} (hodd : b.wp.toNat % 2 = 1) :
    b.symbol = signOf b.wt * jacobiSym (b.wa.toNat : Int) b.wp.toNat :=
  go_eq_jacobiSym _ _ hodd

/-- A turn of the engine that does not finish passes the symbol on (R77, R78). -/
theorem engineTurn_symbol {b : Block nw} (hbusy : (engineTurn b).fsm = .busy) :
    (engineTurn b).symbol = b.symbol := by
  obtain ⟨-, h⟩ | ⟨-, -, h⟩ | ⟨-, hwa, heven, h⟩ | ⟨-, hodd, h⟩ := engineTurn_cases b
  · rw [h]
  · simp [h] at hbusy
  · rw [h, halve_symbol hwa heven]
  · rw [h, swap_symbol hodd]

theorem step_keeps_symbol {s t : State} (hbusy : s.block.fsm = .busy) (h : step s = .next t)
    (hbusy' : t.block.fsm = .busy) : t.block.symbol = s.block.symbol :=
  step_keeps_of_busy (P := fun b => b.symbol = s.block.symbol)
    (fun hsame _ hstill => (engineTurn_symbol hstill).trans hsame) (fun _ _ _ hsame => hsame) rfl hbusy h hbusy'

/-- Settles O50: the right-hand side of R86 is the symbol left to compute, which START sets to that of the
snapshot and every step that stays BUSY keeps. -/
theorem valueInvariant : Obligations.ValueInvariant := by
  refine ⟨fun s t h hstart hbusy => ?_, fun s t A0 N0 hc hvalue h hbusy => ?_, jacobiSym.one_right 0,
    fun m => jacobiSym.zero_left⟩
  · obtain ⟨hp, rfl⟩ := begins_of_acceptsStart h hstart hbusy
    rw [← symbol_eq_jacobiSym (computesFrom_doStart hp).wp_odd, doStart_symbol hp, jac_eq_jacobiSym _ hp.1]
  · have hc' := step_keeps_computesFrom hc h hbusy
    rw [hvalue, ← symbol_eq_jacobiSym hc.wp_odd, ← symbol_eq_jacobiSym hc'.wp_odd,
      step_keeps_symbol hc.busy h hbusy]

end Sys2Proof.Machine
end

section
/-! PROOFS. A computation left to the engine (R79, R82): how many turns it takes and what it leaves in RESULT. -/

namespace Sys2Proof.Machine

variable {nw : Nat}

/-- The engine alone brings a BUSY block to DONE with its symbol, within the bound on its turns. -/
theorem microSteps_reach_done {b : Block nw} (hl : b.Legal) (hbusy : b.fsm = .busy) :
    ∃ m, m ≤ b.turnBound ∧ (∀ j, j < m → (microSteps j b).fsm = .busy)
      ∧ (microSteps m b).fsm = .done ∧ (microSteps m b).result = enc b.symbol := by
  induction hk : b.turnBound using Nat.strong_induction_on generalizing b with
  | h k ih =>
    subst hk
    obtain ⟨hdone, hresult⟩ | ⟨hstill, hsymbol, hless⟩ := engineTurn_progress hl hbusy
    · refine ⟨1, hl.turnBound_pos hbusy, fun j hj => ?_, hdone, hresult⟩
      obtain rfl : j = 0 := by omega
      exact hbusy
    · obtain ⟨m, hm, hbefore, hdone, hresult⟩ := ih _ hless hl.engineTurn hstill rfl
      refine ⟨m + 1, by omega, fun j hj => ?_, hdone, hsymbol ▸ hresult⟩
      cases j with
      | zero => exact hbusy
      | succ j => exact hbefore j (Nat.lt_of_succ_lt_succ hj)

/-- An accepted START whose operands satisfy the precondition leads to DONE with their symbol (R79, R82). -/
theorem computation_of_precondition {b : Block nw} (h : b.preconditionHolds) :
    ∃ m, m ≤ 2 * bitlen b.nVal ∧ (∀ j, j < m → (microSteps j (doStart b)).fsm = .busy)
      ∧ (microSteps m (doStart b)).fsm = .done
      ∧ (microSteps m (doStart b)).result = enc (jac b.aVal b.nVal) := by
  obtain ⟨m, hm, hrun⟩ := microSteps_reach_done (legal_doStart b) (doStart_fsm_of_precondition h)
  exact ⟨m, hm.trans (doStart_turnBound_le h), doStart_symbol h ▸ hrun⟩

/-- The first turn of a computation does not finish, since the argument begins above 0 (R72, R75). -/
theorem engineTurn_doStart_busy {b : Block nw} (h : b.preconditionHolds) :
    (engineTurn (doStart b)).fsm = .busy := by
  have hwa : (doStart b).wa.toNat ≠ 0 := by
    rw [doStart_of_precondition h]
    exact h.2.1.ne'
  rw [(engineTurn_of_ne_zero hwa).2, doStart_fsm_of_precondition h]

/-- Settles O45: the block is still BUSY after no turn and after one, and the bits of N0 bound the turns. -/
theorem stepBound : Obligations.StepBound := by
  intro nw b _ hp
  obtain ⟨m, hm, hbefore, hdone, -⟩ := computation_of_precondition hp
  have htwo : 2 ≤ m := by
    by_contra hlt
    have hbusy : (microSteps m (doStart b)).fsm = .busy := by
      interval_cases m
      · exact doStart_fsm_of_precondition hp
      · exact engineTurn_doStart_busy hp
    simp [hbusy] at hdone
  exact ⟨m, htwo, hm, (bitlen_le_iff _ _).mpr (operandValue_lt b.nWord), hbefore, hdone⟩

/-- The example of R79: the argument runs through 5, 1 and 0, and the third turn finishes. -/
theorem computation_of_five_twentyOne {b : Block nw} (ha : b.aVal = 5) (hn : b.nVal = 21) :
    (microSteps 2 (doStart b)).fsm = .busy ∧ (microSteps 3 (doStart b)).fsm = .done
    ∧ (microSteps 3 (doStart b)).result = 0x00000001#32 := by
  have hp : b.preconditionHolds := by rw [Block.preconditionHolds, ha, hn]; decide
  have hbusy : (doStart b).fsm = .busy := doStart_fsm_of_precondition hp
  have hsymbol : (doStart b).symbol = 1 := by rw [doStart_symbol hp, ha, hn]; rfl
  have hwa : (doStart b).wa.toNat = 5 := by rw [doStart_of_precondition hp]; exact ha
  have hwp : (doStart b).wp.toNat = 21 := by rw [doStart_of_precondition hp]; exact hn
  generalize doStart b = d at hbusy hsymbol hwa hwp ⊢
  have hwa₁ : (swap d).wa.toNat = 1 := by rw [swap_wa_toNat, hwa, hwp]
  have hwa₂ : (swap (swap d)).wa.toNat = 0 := by rw [swap_wa_toNat, hwa₁, Nat.mod_one]
  have hturn₁ : engineTurn d = swap d := engineTurn_of_odd hbusy (by rw [hwa])
  have hturn₂ : engineTurn (swap d) = swap (swap d) := engineTurn_of_odd (b := swap d) hbusy (by rw [hwa₁])
  have hturn₃ : engineTurn (swap (swap d)) = finish (swap (swap d)) :=
    engineTurn_of_zero (b := swap (swap d)) hbusy hwa₂
  simp only [microSteps, hturn₁, hturn₂, hturn₃]
  refine ⟨hbusy, rfl, ?_⟩
  rw [finish_result_eq_enc_symbol hwa₂, swap_symbol (by rw [hwa₁]), swap_symbol (by rw [hwa]), hsymbol]
  rfl

/-- Settles O46: the equations of R79, and the computation that the engine carries out. -/
theorem engineComputesJac : Obligations.EngineComputesJac := by
  refine ⟨fun _ _ => rfl, go_zero, fun a p s ha heven => ?_, fun a p s hodd => ?_, fun nw b _ hp => ?_,
    fun nw b _ => computation_of_five_twentyOne⟩
  · rw [go_of_even p s ha heven, if_congr (halveFlips_iff p) rfl rfl]
  · rw [go_of_odd p s hodd, if_congr (swapFlips_iff a p) rfl rfl]
  · obtain ⟨m, -, hrun⟩ := computation_of_precondition hp
    exact ⟨m, hrun⟩

end Sys2Proof.Machine
end

section
/-! PROOFS. The precondition fault (R93 to R97): which code a START records, what taking the fault writes, and how
ERROR is left. -/

namespace Sys2Proof.Machine

variable {nw : Nat}

/-! The code that is recorded (R93). -/

/-- Cause `k` of a precondition fault holds for the operands (R90, R93). -/
def Block.FaultCause (b : Block nw) (k : Nat) : Prop :=
  (k = 1 ∧ b.nVal % 2 = 0) ∨ (k = 2 ∧ b.aVal = 0) ∨ (k = 3 ∧ b.aVal ≥ b.nVal)

/-- Cause `k` holds and no cause with a lower code does (R93). -/
def Block.LowestCause (b : Block nw) (k : Nat) : Prop := b.FaultCause k ∧ ∀ j, j < k → ¬ b.FaultCause j

theorem faultCause_one (b : Block nw) : b.FaultCause 1 ↔ b.nVal % 2 = 0 := by simp [Block.FaultCause]

theorem faultCause_two (b : Block nw) : b.FaultCause 2 ↔ b.aVal = 0 := by simp [Block.FaultCause]

theorem faultCause_three (b : Block nw) : b.FaultCause 3 ↔ b.aVal ≥ b.nVal := by simp [Block.FaultCause]

theorem Block.FaultCause.range {b : Block nw} {k : Nat} (h : b.FaultCause k) : 1 ≤ k ∧ k ≤ 3 := by
  unfold Block.FaultCause at h
  omega

theorem Block.LowestCause.unique {b : Block nw} {j k : Nat} (hj : b.LowestCause j) (hk : b.LowestCause k) :
    j = k :=
  le_antisymm (not_lt.mp fun hlt => hj.2 k hlt hk.1) (not_lt.mp fun hlt => hk.2 j hlt hj.1)

/-- A cause of a fault breaks the precondition (R2, R90). -/
theorem Block.FaultCause.not_precondition {b : Block nw} {k : Nat} (h : b.FaultCause k) :
    ¬ b.preconditionHolds := by
  rintro ⟨hodd, hpos, hlt⟩
  unfold Block.FaultCause at h
  omega

/-- The precondition fails exactly if some cause of a fault holds (R2, R93). -/
theorem not_precondition_iff_faultCause (b : Block nw) :
    ¬ b.preconditionHolds ↔ b.FaultCause 1 ∨ b.FaultCause 2 ∨ b.FaultCause 3 := by
  rw [faultCause_one, faultCause_two, faultCause_three, Block.preconditionHolds]
  omega

/-- A START enters ERROR exactly if the precondition fails (R72). -/
theorem doStart_error_iff (b : Block nw) : (doStart b).fsm = .error ↔ ¬ b.preconditionHolds := by
  refine ⟨fun herror hp => ?_, doStart_fsm_of_not_precondition⟩
  simp [doStart_fsm_of_precondition hp] at herror

/-- A START that breaks the precondition records the lowest cause (R93). -/
theorem doStart_records_lowestCause {b : Block nw} (h : ¬ b.preconditionHolds) :
    ∃ k, b.LowestCause k ∧ (doStart b).errcode = BitVec.ofNat 4 k := by
  obtain ⟨heven, hs⟩ | ⟨hodd, hzero, hs⟩ | ⟨hodd, hpos, hge, hs⟩ | ⟨hp, -⟩ := doStart_cases b
  · refine ⟨1, ⟨(faultCause_one b).mpr heven, fun j hj hc => ?_⟩, by simp [hs]⟩
    unfold Block.FaultCause at hc
    omega
  · refine ⟨2, ⟨(faultCause_two b).mpr hzero, fun j hj hc => ?_⟩, by simp [hs]⟩
    unfold Block.FaultCause at hc
    omega
  · refine ⟨3, ⟨(faultCause_three b).mpr hge, fun j hj hc => ?_⟩, by simp [hs]⟩
    unfold Block.FaultCause at hc
    omega
  · exact absurd hp h

/-- The code that is recorded is that of the lowest cause, and no other (R93). -/
theorem doStart_records_iff (b : Block nw) {k : Nat} (hk : k ≤ 3) :
    (doStart b).fsm = .error ∧ (doStart b).errcode = BitVec.ofNat 4 k ↔ b.LowestCause k := by
  constructor
  · rintro ⟨herror, hcode⟩
    obtain ⟨j, hlow, hj⟩ := doStart_records_lowestCause ((doStart_error_iff b).mp herror)
    have hrange := hlow.1.range
    have hnat := congrArg BitVec.toNat (hj.symm.trans hcode)
    simp only [BitVec.toNat_ofNat] at hnat
    obtain rfl : j = k := by omega
    exact hlow
  · intro hlow
    have hp : ¬ b.preconditionHolds := hlow.1.not_precondition
    obtain ⟨j, hlow', hj⟩ := doStart_records_lowestCause hp
    exact ⟨(doStart_error_iff b).mpr hp, hlow.unique hlow' ▸ hj⟩

/-- The START of a block that is not BUSY (R70, R72). -/
theorem exec_start_of_not_busy {s : State} (rsv : BitVec 28) (hb : s.block.fsm ≠ .busy) :
    exec (.start rsv) s = .next { s with block := doStart s.block } := by
  rw [exec, execStart, startCommand_of_not_busy hb]

/-- Settles O32: START records the lowest cause, and the rest is arithmetic on the causes. -/
theorem lowestFaultCodeRecorded : Obligations.LowestFaultCodeRecorded := by
  intro s t rsv hb h cause
  obtain rfl := Host.Outcome.next.inj ((exec_start_of_not_busy rsv hb).symm.trans h)
  have h1 : cause 1 ↔ s.block.nVal % 2 = 0 := faultCause_one s.block
  have h2 : cause 2 ↔ s.block.aVal = 0 := faultCause_two s.block
  have h3 : cause 3 ↔ s.block.aVal ≥ s.block.nVal := faultCause_three s.block
  refine ⟨fun k _ hk => doStart_records_iff s.block hk,
    (doStart_error_iff s.block).trans (not_precondition_iff_faultCause s.block), ?_, ?_⟩
  · rw [h2, h3]
    omega
  · rw [h1, h2, h3]
    omega

/-! Entry (R95, R96). -/

/-- Settles O33, by the form of a START that breaks the precondition. -/
theorem faultEntrySavesNothingElse : Obligations.FaultEntrySavesNothingElse := by
  intro s rsv hb hp
  rw [exec_start_of_not_busy rsv hb, doStart_of_not_precondition hp]
  refine ⟨_, ?_, rfl⟩
  split_ifs <;> simp

/-- Settles O34: the block is in ERROR, which STATUS shows and which no turn of the engine leaves. -/
theorem faultIsPrecise : Obligations.FaultIsPrecise := by
  intro s t rsv hb hp h
  obtain rfl := Host.Outcome.next.inj ((exec_start_of_not_busy rsv hb).symm.trans h)
  have herror : (doStart s.block).fsm = .error := doStart_fsm_of_not_precondition hp
  have hidle : (doStart s.block).fsm ≠ .busy := by simp [herror]
  refine ⟨⟨(doStart s.block).statusWord, rfl, (statusWord_err_iff _).mpr herror,
    Bool.eq_false_of_not_eq_true ((statusWord_busy_iff _).not.mpr hidle), ?_⟩, microSteps_of_not_busy hidle⟩
  rw [statusWord_errcode, doStart_of_not_precondition hp]
  rfl

/-! Exit (R97). -/

/-- START begins a computation or records a fault with its code (R72, R93). -/
theorem doStart_busy_or_error (b : Block nw) : (doStart b).fsm = .busy ∨ ((doStart b).fsm = .error ∧
    (doStart b).errcode = if b.nVal % 2 = 0 then 1#4 else if b.aVal = 0 then 2#4 else 3#4) := by
  by_cases hp : b.preconditionHolds
  · exact .inl (doStart_fsm_of_precondition hp)
  · rw [doStart_of_not_precondition hp]
    exact .inr ⟨rfl, rfl⟩

/-- Settles O35, by the kinds of turn: one that is no exit writes CMDERR, operand words or nothing. -/
theorem errorExit : Obligations.ErrorExit := by
  intro s t herror h
  obtain ⟨k, hk, he⟩ := step_turn h
  simp only [hk.start_iff, hk.clear_iff, hk.reset_iff]
  cases he with
  | reset | clear => simp
  | start =>
    have hkeep (hset : s.block.cmderr = true) : (doStart s.block).cmderr ≠ false := by simp [hset]
    exact ⟨nofun, fun _ => doStart_busy_or_error s.block, nofun, fun _ hstart => absurd rfl hstart,
      fun hset hclear => absurd hclear (hkeep hset)⟩
  | engine hbusy => simp [herror] at hbusy
  | rejected => simp [herror]
  | other => simp +contextual [herror]

end Sys2Proof.Machine
end

section
/-! PROOFS. Time and reset (70_reset_and_hazards.md): the cycles of a computation (R118), the reset values
(R107) and the reset event (R106, R108). -/

namespace Sys2Proof.Machine

/-! Time (R118). -/

/-- Settles O57: each of the at most 2·bitlen(N0) micro-steps (R82) takes at most STEP_CYCLES cycles. -/
theorem cycleBound : Obligations.CycleBound := by
  intro nw b stepCycles cycles hb hp hcycles
  obtain ⟨m, -, hm, hbits, hbefore, hdone⟩ := stepBound nw b hb hp
  refine ⟨m, hbefore, hdone, ?_, by gcongr⟩
  calc ∑ j ∈ Finset.range m, cycles j
      ≤ m * stepCycles := by
        simpa using Finset.sum_le_card_nsmul (Finset.range m) cycles stepCycles fun j _ => (hcycles j).2
    _ ≤ 2 * bitlen b.nVal * stepCycles := by gcongr

/-! The reset values (R107). -/

/-- Settles O44. -/
theorem resetIsLegal : Obligations.ResetIsLegal := ⟨legal_reset _, legal_reset⟩

/-- The block after reset is one that CLEAR leaves as it is, so it shows the STATUS of a CLEAR (R73, R107). -/
@[simp] theorem reset_statusWord (nw : Nat) : (Block.reset nw).statusWord = 0x00000000#32 := by
  rw [← doClear_of_idle (legal_reset nw) reset_fsm reset_cmderr, doClear_statusWord]

/-- Settles O58, by the reset value of each element. -/
theorem resetValues : Obligations.ResetValues := by
  refine ⟨fun c => ⟨fun i => ⟨?_, ?_⟩, reset_result, reset_fsm, reset_errcode, reset_cmderr, reset_wa_toNat,
    reset_wp_toNat, reset_wt, reset_statusWord c.nw, rfl, rfl⟩, rfl⟩
  · simp
  · simp

/-! The reset event (R106, R108). -/

/-- Settles O59. -/
theorem resetEvent : Obligations.ResetEvent := by
  intro s rest hin
  have hreset : s.takesReset := by simp [State.takesReset, hin]
  refine ⟨?_, reset_fsm⟩
  rw [step_of_takesReset hreset, hin, List.tail_cons]

/-- What a reset leads to is the same from two states that differ in the block alone (R106, R108). -/
theorem step_eq_of_takesReset {s s' : State} (hreset : s.takesReset) (hcfg : s'.cfg = s.cfg)
    (hinputs : s'.inputs = s.inputs) (hreturned : s'.returned = s.returned) : step s' = step s := by
  have hreset' : s'.takesReset := by rwa [State.takesReset, hinputs]
  rw [step_of_takesReset hreset', step_of_takesReset hreset, hcfg, hinputs, hreturned]

/-- Settles O60: the reset block has no result, no flag and no fault, and the step does not read the block. -/
theorem resetAbandonsComputation : Obligations.ResetAbandonsComputation := by
  refine ⟨fun s t hreset _ h => ?_, fun s s' => step_eq_of_takesReset⟩
  obtain rfl := Host.Outcome.next.inj ((step_of_takesReset hreset).symm.trans h)
  simp

end Sys2Proof.Machine
end
